-- ==== Sys2Proof/Word.lean ====
section
/-!
DEFINITION. The widths this machine computes with: bytes, instruction words, the 64-bit register state, and the two
lengths of the register as software sees it (00_scope.md R4, R7; 10_state.md R10, R13).
-/

namespace Sys2Proof

/-- One field of the register, or one byte of an instruction word (10_state.md R10; 30_encoding.md R51). -/
abbrev Byte := BitVec 8

/-- An instruction word: every CSR access instruction is 32 bits long (30_encoding.md R51). -/
abbrev InsnWord := BitVec 32

/-- Sixty-four bits: the state `S` of the register (10_state.md R10), and the storage of a general register or of the
program counter, of which the low `len()` bits are the register (10_state.md R26, R27; DESIGN CHOICE, log entry 5). -/
abbrev Word64 := BitVec 64

/-- The two values `len()` takes (00_scope.md R4). -/
inductive Len
  | len32
  | len64
  deriving DecidableEq, Repr

/-- `len()` as a number of bits: 32 or 64 (10_state.md R13). -/
def Len.bits : Len → Nat
  | .len32 => 32
  | .len64 => 64

end Sys2Proof
end

