-- ==== Sys2Proof/Config.lean ====
section
/-!
DEFINITION. What an implementation fixes: the two parameters of the source, which the spec leaves OPEN, and the one
choice the spec leaves to the implementation about an exception's recorded value. None has a body, so no proof can
learn a value of it. The CSR address is the source's own and is a plain constant.
-/

namespace Sys2Proof

/-- The two configuration parameters of the source, fixed for the life of the machine (00_scope.md R2, R3). The spec
has the model take them as arguments, of type natural number and with no range; the machine's state carries them, no
step writes them (DESIGN CHOICE, log entry 1). -/
structure Params where
  /-- `NUM_PMP_ENTRIES` (R2). -/
  numPmpEntries : Nat
  /-- `PMP_GRANULARITY`, in a unit the source does not define (R3). -/
  pmpGranularity : Nat
  deriving DecidableEq, Repr

namespace Config

/-- `NUM_PMP_ENTRIES` of the machine that comes out of reset: OPEN (00_scope.md R2; decision D5; DESIGN CHOICE, log entry 1). -/
opaque numPmpEntries : Nat

/-- `PMP_GRANULARITY` of the machine that comes out of reset: OPEN (00_scope.md R3; decision D6; DESIGN CHOICE, log entry 1). -/
opaque pmpGranularity : Nat

/-- Whether the implementation records the instruction word (true) or zero (false) for an illegal instruction: either,
as the implementation chooses (60_exceptions.md R81; 93_implementation_defined.md U10; DESIGN CHOICE, log entry 2). -/
opaque illegalInstructionRecordsWord : Bool

/-- The CSR address of `pmpcfg12` (00_scope.md R1; 30_encoding.md R50). -/
def pmpcfg12Address : BitVec 12 := 0x3ac#12

end Config

end Sys2Proof
end

