-- ==== Sys2Proof/Syntax.lean ====
section
/-!
DEFINITION. The instructions: one constructor for each of the six rows of spec/opcode_table.json, with the operands in
the assembler's order, destination, CSR, source (30_encoding.md R56).
-/

namespace Sys2Proof

/-- The number of a general register, `x0` to `x31` (30_encoding.md R52; 10_state.md R26). -/
abbrev Reg := Fin 32

/-- A CSR address, an unsigned 12-bit number (30_encoding.md R50, R52). -/
abbrev CsrAddress := BitVec 12

/-- The immediate of the immediate forms, the five bits 19:15 (30_encoding.md R52). -/
abbrev Uimm := BitVec 5

/-- The CSR access instructions (30_encoding.md R53). The CSR is an operand, as the assembler writes it; the only
well-formed value of it is the address of `pmpcfg12` (Sys2Proof/WellFormed.lean). -/
inductive Instr
  /-- Read and write (40_csr_access.md R66). -/
  | csrrw (rd : Reg) (csr : CsrAddress) (rs1 : Reg)
  /-- Read and set bits (40_csr_access.md R67). -/
  | csrrs (rd : Reg) (csr : CsrAddress) (rs1 : Reg)
  /-- Read and clear bits (40_csr_access.md R68). -/
  | csrrc (rd : Reg) (csr : CsrAddress) (rs1 : Reg)
  /-- Read and write immediate (40_csr_access.md R69). -/
  | csrrwi (rd : Reg) (csr : CsrAddress) (uimm : Uimm)
  /-- Read and set bits immediate (40_csr_access.md R70). -/
  | csrrsi (rd : Reg) (csr : CsrAddress) (uimm : Uimm)
  /-- Read and clear bits immediate (40_csr_access.md R71). -/
  | csrrci (rd : Reg) (csr : CsrAddress) (uimm : Uimm)
  deriving DecidableEq, Repr

/-- The assembler's pseudo-instructions on `pmpcfg12`, second names of words of the six instructions
(30_encoding.md R56); what each stands for is Pseudo.expand in Sys2Proof/Decode.lean. -/
inductive Pseudo
  | csrr (rd : Reg)
  | csrw (rs1 : Reg)
  | csrs (rs1 : Reg)
  | csrc (rs1 : Reg)
  | csrwi (uimm : Uimm)
  | csrsi (uimm : Uimm)
  | csrci (uimm : Uimm)
  deriving DecidableEq, Repr

/-- The CSR operand of an instruction. -/
def Instr.csr : Instr → CsrAddress
  | .csrrw _ csr _ => csr
  | .csrrs _ csr _ => csr
  | .csrrc _ csr _ => csr
  | .csrrwi _ csr _ => csr
  | .csrrsi _ csr _ => csr
  | .csrrci _ csr _ => csr

/-- The destination register of an instruction. -/
def Instr.rd : Instr → Reg
  | .csrrw rd _ _ => rd
  | .csrrs rd _ _ => rd
  | .csrrc rd _ _ => rd
  | .csrrwi rd _ _ => rd
  | .csrrsi rd _ _ => rd
  | .csrrci rd _ _ => rd

end Sys2Proof
end

