-- ==== Sys2Proof/WellFormed.lean ====
section
/-!
DEFINITION. Which instructions are instructions of this hardware. Register numbers and immediates are in range by
their types; what is left to check is that the CSR operand names `pmpcfg12` (30_encoding.md R50, R57).
-/

namespace Sys2Proof

/-- The instruction accesses `pmpcfg12`: its CSR-address field holds 0x3ac (30_encoding.md R50). -/
def Instr.wellFormed : Instr → Bool
  | .csrrw _ csr _ => csr == Config.pmpcfg12Address
  | .csrrs _ csr _ => csr == Config.pmpcfg12Address
  | .csrrc _ csr _ => csr == Config.pmpcfg12Address
  | .csrrwi _ csr _ => csr == Config.pmpcfg12Address
  | .csrrsi _ csr _ => csr == Config.pmpcfg12Address
  | .csrrci _ csr _ => csr == Config.pmpcfg12Address

end Sys2Proof
end

