-- ==== Sys2Proof/Decode.lean ====
section
/-!
DEFINITION. The decoder, total on any bytes, and after it the encoder (30_encoding.md R51 to R53, R57).
-/

namespace Sys2Proof

/-- Why bytes are not an instruction of this hardware. -/
inductive DecodeError
  /-- Fewer than four bytes: every instruction is four bytes long (30_encoding.md R51). Safe. -/
  | tooFewBytes
  /-- The word is not an access to pmpcfg12: it equals none of the six match values under the mask, so it is outside
  this spec (30_encoding.md R57; decision D13). Safe. -/
  | notAnAccessToPmpcfg12 (word : InsnWord)
  deriving DecidableEq, Repr

/-- `rd = insn[11:7]` (30_encoding.md R52). -/
def rdField (w : InsnWord) : Reg := (w.extractLsb' 7 5).toFin

/-- `rs1 = insn[19:15]` (30_encoding.md R52). -/
def rs1Field (w : InsnWord) : Reg := (w.extractLsb' 15 5).toFin

/-- The immediate, the same bits 19:15 (30_encoding.md R52). -/
def uimmField (w : InsnWord) : Uimm := w.extractLsb' 15 5

/-- `csr = insn[31:20]` (30_encoding.md R52). -/
def csrField (w : InsnWord) : CsrAddress := w.extractLsb' 20 12

/-- The bits that select an instruction and the CSR: all but `rd` and `rs1` or `uimm` (30_encoding.md R53). -/
def matchMask : InsnWord := 0xfff0707f#32

/-- The decoder of an instruction word (30_encoding.md R57, with the match values of R53). -/
def decodeWord (w : InsnWord) : Except DecodeError Instr :=
  if w &&& matchMask = 0x3ac01073#32 then .ok (.csrrw (rdField w) (csrField w) (rs1Field w))
  else if w &&& matchMask = 0x3ac02073#32 then .ok (.csrrs (rdField w) (csrField w) (rs1Field w))
  else if w &&& matchMask = 0x3ac03073#32 then .ok (.csrrc (rdField w) (csrField w) (rs1Field w))
  else if w &&& matchMask = 0x3ac05073#32 then .ok (.csrrwi (rdField w) (csrField w) (uimmField w))
  else if w &&& matchMask = 0x3ac06073#32 then .ok (.csrrsi (rdField w) (csrField w) (uimmField w))
  else if w &&& matchMask = 0x3ac07073#32 then .ok (.csrrci (rdField w) (csrField w) (uimmField w))
  else .error (.notAnAccessToPmpcfg12 w)

/-- An instruction word from its four bytes, the byte at the lowest address first: that byte holds bits 7:0
(30_encoding.md R51). -/
def wordOfBytes (b0 b1 b2 b3 : Byte) : InsnWord := b3 ++ b2 ++ b1 ++ b0

/-- The four bytes of an instruction word, the byte at the lowest address first (30_encoding.md R51). -/
def bytesOfWord (w : InsnWord) : List Byte :=
  [w.extractLsb' 0 8, w.extractLsb' 8 8, w.extractLsb' 16 8, w.extractLsb' 24 8]

/-- The decoder of bytes: the instruction at the front and the bytes after it. -/
def decodeBytes : List Byte → Except DecodeError (Instr × List Byte)
  | b0 :: b1 :: b2 :: b3 :: rest =>
    match decodeWord (wordOfBytes b0 b1 b2 b3) with
    | .ok i => .ok (i, rest)
    | .error e => .error e
  | _ => .error .tooFewBytes

/-- The one format of the six instructions: `csr`, `rs1` or `uimm`, `funct3`, `rd`, `opcode` (30_encoding.md R51). -/
def encodeFields (csr : CsrAddress) (src : BitVec 5) (funct3 : BitVec 3) (rd : Reg) : InsnWord :=
  csr ++ src ++ funct3 ++ (BitVec.ofFin rd : BitVec 5) ++ 0b1110011#7

/-- The encoder (30_encoding.md R53, its `funct3` column). -/
def encodeWord : Instr → InsnWord
  | .csrrw rd csr rs1 => encodeFields csr (BitVec.ofFin rs1) 0b001 rd
  | .csrrs rd csr rs1 => encodeFields csr (BitVec.ofFin rs1) 0b010 rd
  | .csrrc rd csr rs1 => encodeFields csr (BitVec.ofFin rs1) 0b011 rd
  | .csrrwi rd csr uimm => encodeFields csr uimm 0b101 rd
  | .csrrsi rd csr uimm => encodeFields csr uimm 0b110 rd
  | .csrrci rd csr uimm => encodeFields csr uimm 0b111 rd

/-- The bytes of an instruction as they lie in memory. -/
def encode (i : Instr) : List Byte := bytesOfWord (encodeWord i)

/-- The instruction a pseudo-instruction stands for (30_encoding.md R56, its table of expansions). -/
def Pseudo.expand : Pseudo → Instr
  | .csrr rd => .csrrs rd Config.pmpcfg12Address 0
  | .csrw rs1 => .csrrw 0 Config.pmpcfg12Address rs1
  | .csrs rs1 => .csrrs 0 Config.pmpcfg12Address rs1
  | .csrc rs1 => .csrrc 0 Config.pmpcfg12Address rs1
  | .csrwi uimm => .csrrwi 0 Config.pmpcfg12Address uimm
  | .csrsi uimm => .csrrsi 0 Config.pmpcfg12Address uimm
  | .csrci uimm => .csrrci 0 Config.pmpcfg12Address uimm

/-- The low `nbits` bits of `w` as one instruction word, every bit above them 0. -/
def tableWord (nbits w : Nat) : InsnWord := BitVec.ofNat 32 (w % 2 ^ nbits)

/-- What the decoder reads from the bytes of an opcode-table word. -/
def decodeTableWord (nbits w : Nat) : Option Instr :=
  match decodeBytes (bytesOfWord (tableWord nbits w)) with
  | .ok (i, _) => some i
  | .error _ => none

end Sys2Proof
end

