-- ==== Sys2Proof/Machine/State.lean ====
section
/-!
DEFINITION. The state of the machine as plain data, the reasons a step can stop, and the state after reset. The state
the spec gives is the 64 bits of `pmpcfg12`; around it stand the general registers and program counter of the
instruction layer, the inputs the spec says every operation takes (MXL, the mode), and fields of the model's own, each
named as such.
-/

namespace Sys2Proof.Machine

/-- The privilege mode, an input of every software access: mode M, or any mode below it (00_scope.md R6;
60_exceptions.md R87). -/
inductive Mode
  | M
  | belowM
  deriving DecidableEq, Repr

/-- The exceptions this spec names. `info` is what the rule that raises it passes to `raise`. -/
inductive Exception
  /-- A CSR access instruction in a mode below M, with its word (60_exceptions.md R81, R82). -/
  | illegalInstruction (insn : InsnWord)
  /-- An instruction fetch denied by an entry, raised by a PMP check only (60_exceptions.md R80). -/
  | instructionAccessFault (address : Word64)
  /-- A load denied by an entry, raised by a PMP check only (60_exceptions.md R80). -/
  | loadAccessFault (address : Word64)
  /-- A store or AMO denied by an entry, raised by a PMP check only (60_exceptions.md R80). -/
  | storeAmoAccessFault (address : Word64)
  deriving DecidableEq, Repr

/-- What a run lets be observed: the values that reads returned and the exceptions raised (70_reset_and_hazards.md
R103), and the writes attempted, which a model that records accesses tells apart from no write (40_csr_access.md R65).
A value is exactly `len()` bits wide (decision D28). -/
inductive Observation
  | read (l : Len) (value : BitVec l.bits)
  | write (l : Len) (value : BitVec l.bits)
  | raised (e : Exception)
  deriving DecidableEq, Repr

/-- What the spec leaves to the launch of a run: the inputs MXL and mode, the address execution starts at
(70_reset_and_hazards.md R97), and the contents of `x1` to `x31`, for which it states no reset value. -/
structure Launch where
  mxl : Nat
  mode : Mode
  pc : Word64
  x : Vector Word64 31
  deriving DecidableEq, Repr

/-- What happens next, as far as it comes from outside the hart's own instructions. -/
inductive Input
  /-- The hart executes its next instruction with MXL and mode as they stand. -/
  | run
  /-- The reset event, which may occur between any two operations (00_scope.md R9; 70_reset_and_hazards.md R95). -/
  | reset (launch : Launch)
  /-- `CSR[misa].MXL` becomes `mxl`, and `x1` to `x31` hold `x` after it: what happens to the general registers is
  outside the spec, so the input says it (00_scope.md R4; 70_reset_and_hazards.md R101; DESIGN CHOICE, log entry 6). -/
  | mxlBecomes (mxl : Nat) (x : Vector Word64 31)
  /-- The privilege mode becomes `mode` (00_scope.md R6). -/
  | modeBecomes (mode : Mode)
  /-- The trap mechanism outside this spec takes the raised exception and lets the hart go on at `pc` in `mode`
  (60_exceptions.md R86; 40_csr_access.md R76). -/
  | trapTaken (mode : Mode) (pc : Word64)
  deriving DecidableEq, Repr

/-- Instruction memory: pairs of an address and a byte, addresses strictly rising; a byte that is not listed has no
value (DESIGN CHOICE, log entry 9). -/
abbrev Memory := List Host.Cell

/-- The machine's state. -/
structure State where
  /-- The configuration parameters, which no step writes (00_scope.md R2, R3; DESIGN CHOICE, log entry 1). -/
  params : Params
  /-- `S`, the 64 bits of `pmpcfg12` (10_state.md R10). -/
  pmpcfg12 : Word64
  /-- `CSR[misa].MXL` as it stands, an input the spec does not own, in the source's numbering (00_scope.md R4). -/
  mxl : Nat
  /-- The current privilege mode, an input (00_scope.md R6). -/
  mode : Mode
  /-- `x1` to `x31`; `x0` is hard-wired to zero and has no storage (10_state.md R26). -/
  x : Vector Word64 31
  /-- The program counter (10_state.md R27). -/
  pc : Word64
  /-- The memory instruction words are fetched from (30_encoding.md R51; DESIGN CHOICE, log entry 9). -/
  mem : Memory
  /-- The exception that ended the last instruction and that the trap mechanism has not taken yet: the abstract
  outcome of `raise` (60_exceptions.md R86; DESIGN CHOICE, log entry 3). -/
  trap : Option Exception
  /-- The model's own: what the agents outside the hart do next, first first (DESIGN CHOICE, log entry 4). -/
  inputs : List Input
  /-- The model's own: what the run has let be observed, last first (70_reset_and_hazards.md R103; DESIGN CHOICE, log entry 8). -/
  observed : List Observation
  deriving DecidableEq, Repr

/-- Why the machine stops with a fault. -/
inductive Fault
  /-- Raised by instruction fetch: nothing has stored a byte at this address, and the spec gives memory no contents.
  Safe: the machine stops where hardware would read some byte (DESIGN CHOICE, log entry 9). -/
  | fetchOfUnwrittenByte (address : Nat)
  deriving DecidableEq, Repr

/-- Why the model gives a step no meaning. -/
inductive Refusal
  /-- Raised by the dispatch alone, for an instruction that has no meaning yet. Safe. -/
  | notModelled (mnemonic : String)
  /-- Raised by a step whose bytes are not one of the six instructions (30_encoding.md R57). Safe. -/
  | undecodable (e : DecodeError)
  /-- Raised by every instruction: its CSR operand is not `pmpcfg12`, so it is not an instruction of this hardware
  (30_encoding.md R50, R55). Safe. -/
  | otherCsr (csr : CsrAddress)
  /-- Raised by a fetch and by every instruction: MXL is neither 0 nor 1, so there is no length and the operation has no
  meaning (00_scope.md R4; decision D3). Safe. -/
  | mxlWithoutLength (mxl : Nat)
  /-- Raised by a step of the hart while a raised exception awaits the trap mechanism: where control goes is outside
  this spec (60_exceptions.md R86). Safe. -/
  | controlWithTrapMechanism (e : Exception)
  deriving DecidableEq, Repr

/-- The machine right after reset. `pmpcfg12` is the spec's value (10_state.md R25); the values of MXL, mode, `pc` and
`x` are the model's (mode and MXL PRESUMED, `pc` and `x` DESIGN CHOICE, log entry 7); the parameters stay open
(DESIGN CHOICE, log entry 1). -/
def State.reset : State :=
  { params := { numPmpEntries := Config.numPmpEntries, pmpGranularity := Config.pmpGranularity }
    pmpcfg12 := 0#64
    mxl := 1
    mode := .M
    x := Vector.replicate 31 0#64
    pc := 0#64
    mem := []
    trap := none
    inputs := []
    observed := [] }

end Sys2Proof.Machine
end

