-- ==== Sys2Proof/Machine/Ops.lean ====
section
/-!
DEFINITION. The named operations: the length, the eight fields, the read, write and reset of `pmpcfg12`, the general
registers and program counter, memory, the raising of an exception, and the common part of the six instructions.
-/

namespace Sys2Proof.Machine

/-! ### The length and the fields -/

/-- `len()` from `CSR[misa].MXL`: 0 means 32 and 1 means 64, and no other value has a length (00_scope.md R4). -/
def lenOf : Nat → Option Len
  | 0 => some .len32
  | 1 => some .len64
  | _ => none

/-- `cfg[k] = S[8k+7:8k]`, the field `pmp<48+k>cfg` (10_state.md R10, R11). -/
def cfg (S : Word64) (k : Fin 8) : Byte := S.extractLsb' (8 * k.val) 8

/-- The 64 bits made of eight fields: `cfg[7] ++ … ++ cfg[0]` (10_state.md R10, R11). -/
def ofFields (f : Fin 8 → Byte) : Word64 := f 7 ++ f 6 ++ f 5 ++ f 4 ++ f 3 ++ f 2 ++ f 1 ++ f 0

/-- Field `k` has type `RO`: `NUM_PMP_ENTRIES <= 48 + k`. Otherwise its type is `RW-R` (10_state.md R15). -/
def isReadOnly (p : Params) (k : Fin 8) : Bool := decide (p.numPmpEntries ≤ 48 + k.val)

/-- Field `k` lies outside the register at this length (10_state.md R13, R14). -/
def isBeyond (l : Len) (k : Fin 8) : Bool := decide (l.bits ≤ 8 * k.val + 7)

/-- The `L` bit of a field (10_state.md R17). -/
def lockBit (c : Byte) : Bool := c.getLsbD 7

/-- `R` = 0 with `W` = 1, the reserved combination (10_state.md R21). -/
def reservedPermissions (c : Byte) : Bool := !c.getLsbD 0 && c.getLsbD 1

/-- The `A` sub-field, bits 4:3 (10_state.md R12, R19). -/
def addressModeBits (c : Byte) : BitVec 2 := c.extractLsb' 3 2

/-- `A` is NA4 where NA4 is not valid (10_state.md R19). -/
def invalidNa4 (p : Params) (c : Byte) : Bool := decide (2 ≤ p.pmpGranularity) && addressModeBits c == 0b10#2

/-! ### Software read, software write, reset -/

/-- The per-field write function, its tests 0a, 0b, 1, 2, 3 in the spec's order (40_csr_access.md R62). -/
def writeField (p : Params) (l : Len) (k : Fin 8) (old new : Byte) : Byte :=
  if isReadOnly p k then old
  else if isBeyond l k then old
  else if lockBit old then old
  else if reservedPermissions new then old
  else if invalidNa4 p new then old
  else new &&& 0x9f#8

/-- `SWREAD()`: the low `len()` bits of `S` (40_csr_access.md R60). -/
def swRead (l : Len) (S : Word64) : BitVec l.bits := S.setWidth l.bits

/-- `SWWRITE(csr_value)`: every field by its write function, from the zero-extended value (40_csr_access.md R61). -/
def swWrite (p : Params) (l : Len) (value : BitVec l.bits) (S : Word64) : Word64 :=
  ofFields fun k => writeField p l k (cfg S k) (cfg (value.setWidth 64) k)

/-- What `RESET()` writes: all 64 bits 0, whatever the length and the locks are (70_reset_and_hazards.md R95). -/
def resetValue : Word64 := 0#64

/-! ### General registers and program counter -/

/-- Read of `x[r]`, `len()` bits wide; `x[0]` is zero (10_state.md R26). -/
def readX (l : Len) (r : Reg) (s : State) : BitVec l.bits :=
  if h : r.val = 0 then 0#l.bits else (s.x[r.val - 1]'(by omega)).setWidth l.bits

/-- Write of `x[r]`; a write to `x[0]` is discarded (40_csr_access.md R65, step 4). -/
def writeX (l : Len) (r : Reg) (v : BitVec l.bits) (s : State) : State :=
  { s with x := if h : r.val = 0 then s.x else s.x.set (r.val - 1) (v.setWidth 64) (by omega) }

/-- The program counter as it stands, `len()` bits wide (10_state.md R27). -/
def pcOf (l : Len) (s : State) : BitVec l.bits := s.pc.setWidth l.bits

/-- `pc <- pc + 4`, modulo `2^len()` (10_state.md R27). -/
def advancePc (l : Len) (s : State) : State :=
  { s with pc := (pcOf l s + 4#l.bits).setWidth 64 }

/-! ### Accesses to the register by an instruction -/

/-- Something is observed (70_reset_and_hazards.md R103). -/
def observe (o : Observation) (s : State) : State := { s with observed := o :: s.observed }

/-- A software write of the state's register, and the access it is (40_csr_access.md R61, R65). -/
def writeCsr (l : Len) (value : BitVec l.bits) (s : State) : State :=
  { s with
    pmpcfg12 := swWrite s.params l value s.pmpcfg12
    observed := .write l value :: s.observed }

/-- Steps 2 to 5 of the common part of the six instructions (40_csr_access.md R65): read the CSR if the instruction
reads it, then write it if the instruction writes it, then write `rd` if the CSR was read, then advance `pc`. The value
written is a function of the value read; source operands are read by the caller, before any of this. -/
def readModifyWrite (l : Len) (rd : Reg) (reads : Bool) (written : Option (BitVec l.bits → BitVec l.bits))
    (s : State) : State :=
  let t := swRead l s.pmpcfg12
  let afterRead := if reads then observe (.read l t) s else s
  let afterWrite :=
    match written with
    | none => afterRead
    | some f => writeCsr l (f t) afterRead
  let afterRd := if reads then writeX l rd t afterWrite else afterWrite
  advancePc l afterRd

/-! ### Exceptions -/

/-- `raise E(info)`: the operation ends with the abstract outcome and writes no other state; what the trap mechanism
then does is outside this spec (60_exceptions.md R86; DESIGN CHOICE, log entry 3). -/
def raise (e : Exception) (s : State) : State :=
  { s with trap := some e, observed := .raised e :: s.observed }

/-- The trap mechanism takes the raised exception and lets the hart go on; with none raised it does nothing
(60_exceptions.md R84, R86). -/
def trapTaken (mode : Mode) (pc : Word64) (s : State) : State :=
  if s.trap.isSome then { s with trap := none, mode := mode, pc := pc } else s

/-- The RISC-V cause code of an exception (60_exceptions.md R80, R81). -/
def causeCode : Exception → Nat
  | .illegalInstruction _ => 2
  | .instructionAccessFault _ => 1
  | .loadAccessFault _ => 5
  | .storeAmoAccessFault _ => 7

/-- The value an exception records: the address of an access fault; for an illegal instruction its word or zero, as the
implementation chooses (60_exceptions.md R80, R81; 93_implementation_defined.md U10; DESIGN CHOICE, log entry 2). -/
def recordedValue : Exception → Word64
  | .illegalInstruction insn => if Config.illegalInstructionRecordsWord then insn.setWidth 64 else 0#64
  | .instructionAccessFault address => address
  | .loadAccessFault address => address
  | .storeAmoAccessFault address => address

/-! ### The common part of the six instructions -/

/-- An access to the CSR by instruction `i`: refused where the CSR is not `pmpcfg12` (30_encoding.md R57) or MXL gives
no length (00_scope.md R4); below M the exception, before everything else the instruction does (40_csr_access.md R65,
step 1); in M the instruction's effect at the current length. -/
def access (i : Instr) (effect : Len → State → State) (s : State) : Host.Outcome State Fault Refusal :=
  if i.csr = Config.pmpcfg12Address then
    match lenOf s.mxl with
    | none => .refused (.mxlWithoutLength s.mxl)
    | some l =>
      match s.mode with
      | .belowM => .next (raise (.illegalInstruction (encodeWord i)) s)
      | .M => .next (effect l s)
  else .refused (.otherCsr i.csr)

/-! ### Memory -/

/-- The byte at an address, none where nothing has been stored. -/
def Memory.read (m : Memory) (a : Nat) : Option Byte :=
  match m with
  | [] => none
  | (b, v) :: rest => if a = b then some v else Memory.read rest a

/-- Store a byte, keeping the addresses strictly rising. -/
def Memory.write (m : Memory) (a : Nat) (v : Byte) : Memory :=
  match m with
  | [] => [(a, v)]
  | (b, w) :: rest =>
    if a < b then (a, v) :: (b, w) :: rest
    else if a = b then (a, v) :: rest
    else (b, w) :: Memory.write rest a v

/-- The canonical form: addresses strictly rising. An unlisted byte has no value, so no listed byte equals what an
unlisted one reads as. -/
def Memory.wf : Memory → Bool
  | [] => true
  | [_] => true
  | (a, _) :: (b, w) :: rest => decide (a < b) && Memory.wf ((b, w) :: rest)

/-- The address of byte `n` of the instruction at `pc`, modulo `2^len()` (DESIGN CHOICE, log entry 9). -/
def codeAddress (l : Len) (s : State) (n : Nat) : Nat := (pcOf l s + BitVec.ofNat l.bits n).toNat

end Sys2Proof.Machine
end

