-- ==== Sys2Proof/Machine/Environment.lean ====
section
/-!
DEFINITION. What the inputs from outside the hart do: the reset event, changes of MXL and of the mode, and the trap
mechanism taking a raised exception (00_scope.md R4, R6, R9; 60_exceptions.md R86; 70_reset_and_hazards.md R95, R101).
-/

namespace Sys2Proof.Machine

/-- The reset event: `RESET()` on the register, and everything else of the hart as the launch says. Memory, the run's
observations and the parameters are no part of what is reset (70_reset_and_hazards.md R95, R97; DESIGN CHOICE, log entry 7). -/
def applyReset (launch : Launch) (s : State) : State :=
  { s with
    pmpcfg12 := resetValue
    mxl := launch.mxl
    mode := launch.mode
    pc := launch.pc
    x := launch.x
    trap := none }

/-- MXL becomes a value. If that is a change, the general registers hold what the input says; nothing else changes
(70_reset_and_hazards.md R101; DESIGN CHOICE, log entry 6). -/
def applyMxl (mxl : Nat) (x : Vector Word64 31) (s : State) : State :=
  { s with mxl := mxl, x := if mxl = s.mxl then s.x else x }

/-- The effect of an input. That the hart is let run changes nothing by itself. -/
def applyInput (i : Input) (s : State) : State :=
  match i with
  | .run => s
  | .reset launch => applyReset launch s
  | .mxlBecomes mxl x => applyMxl mxl x s
  | .modeBecomes mode => { s with mode := mode }
  | .trapTaken mode pc => trapTaken mode pc s

end Sys2Proof.Machine
end

