-- ==== Sys2Proof/Machine/Operands.lean ====
section
/-!
DEFINITION. The two operand forms of the six instructions and the values they attempt to write (30_encoding.md R52;
40_csr_access.md R65, its table). No flag is computed anywhere: there are none (10_state.md R28).
-/

namespace Sys2Proof.Machine

/-- The register form: `x[rs1]`, `len()` bits wide (40_csr_access.md R65). -/
def registerOperand (l : Len) (rs1 : Reg) (s : State) : BitVec l.bits := readX l rs1 s

/-- The immediate form: `zext_len()(uimm)`, never sign-extended (30_encoding.md R52). -/
def immediateOperand (l : Len) (uimm : Uimm) : BitVec l.bits := uimm.setWidth l.bits

/-- The value written by the write forms: the operand (40_csr_access.md R65). -/
def replaceBits {n : Nat} (a : BitVec n) : BitVec n → BitVec n := fun _ => a

/-- The value written by the set forms: `t | a` (40_csr_access.md R65). -/
def setBits {n : Nat} (a : BitVec n) : BitVec n → BitVec n := fun t => t ||| a

/-- The value written by the clear forms: `t & ~a` (40_csr_access.md R65). -/
def clearBits {n : Nat} (a : BitVec n) : BitVec n → BitVec n := fun t => t &&& ~~~a

end Sys2Proof.Machine
end

