-- ==== Sys2Proof/Machine/CsrImmediate.lean ====
section
/-!
DEFINITION. The immediate forms: csrrwi, csrrsi, csrrci (40_csr_access.md R69 to R71).
-/

namespace Sys2Proof.Machine

/-- `csrrwi rd, csr, uimm`: reads if `rd` is not `x0`, always writes the immediate (40_csr_access.md R69). -/
def execCsrrwi (rd : Reg) (csr : CsrAddress) (uimm : Uimm) (s : State) : Host.Outcome State Fault Refusal :=
  access (.csrrwi rd csr uimm)
    (fun l s => readModifyWrite l rd (decide (rd ≠ 0)) (some (replaceBits (immediateOperand l uimm))) s) s

/-- `csrrsi rd, csr, uimm`: always reads, writes `t | zext(uimm)` if `uimm` is not 0 (40_csr_access.md R70). -/
def execCsrrsi (rd : Reg) (csr : CsrAddress) (uimm : Uimm) (s : State) : Host.Outcome State Fault Refusal :=
  access (.csrrsi rd csr uimm)
    (fun l s =>
      readModifyWrite l rd true (if uimm = 0 then none else some (setBits (immediateOperand l uimm))) s) s

/-- `csrrci rd, csr, uimm`: always reads, writes `t & ~zext(uimm)` if `uimm` is not 0 (40_csr_access.md R71). -/
def execCsrrci (rd : Reg) (csr : CsrAddress) (uimm : Uimm) (s : State) : Host.Outcome State Fault Refusal :=
  access (.csrrci rd csr uimm)
    (fun l s =>
      readModifyWrite l rd true (if uimm = 0 then none else some (clearBits (immediateOperand l uimm))) s) s

end Sys2Proof.Machine
end

