-- ==== Sys2Proof/Machine/CsrRegister.lean ====
section
/-!
DEFINITION. The register forms: csrrw, csrrs, csrrc (40_csr_access.md R66 to R68). Whether an instruction reads or
writes the CSR depends on register numbers, never on values (R65).
-/

namespace Sys2Proof.Machine

/-- `csrrw rd, csr, rs1`: reads if `rd` is not `x0`, always writes `x[rs1]` (40_csr_access.md R66). -/
def execCsrrw (rd : Reg) (csr : CsrAddress) (rs1 : Reg) (s : State) : Host.Outcome State Fault Refusal :=
  access (.csrrw rd csr rs1)
    (fun l s => readModifyWrite l rd (decide (rd ≠ 0)) (some (replaceBits (registerOperand l rs1 s))) s) s

/-- `csrrs rd, csr, rs1`: always reads, writes `t | x[rs1]` if `rs1` is not `x0` (40_csr_access.md R67). -/
def execCsrrs (rd : Reg) (csr : CsrAddress) (rs1 : Reg) (s : State) : Host.Outcome State Fault Refusal :=
  access (.csrrs rd csr rs1)
    (fun l s =>
      readModifyWrite l rd true (if rs1 = 0 then none else some (setBits (registerOperand l rs1 s))) s) s

/-- `csrrc rd, csr, rs1`: always reads, writes `t & ~x[rs1]` if `rs1` is not `x0` (40_csr_access.md R68). -/
def execCsrrc (rd : Reg) (csr : CsrAddress) (rs1 : Reg) (s : State) : Host.Outcome State Fault Refusal :=
  access (.csrrc rd csr rs1)
    (fun l s =>
      readModifyWrite l rd true (if rs1 = 0 then none else some (clearBits (registerOperand l rs1 s))) s) s

end Sys2Proof.Machine
end

