-- ==== Sys2Proof/Machine/Fetch.lean ====
section
/-!
DEFINITION. Fetching an instruction: four bytes from `pc` upward, the byte at the lowest address holding bits 7:0
(30_encoding.md R51; DESIGN CHOICE, log entry 9).
-/

namespace Sys2Proof.Machine

/-- Byte `n` of the instruction at `pc`, or the address that has none. -/
def fetchByte (l : Len) (s : State) (n : Nat) : Except Nat Byte :=
  match Memory.read s.mem (codeAddress l s n) with
  | some b => .ok b
  | none => .error (codeAddress l s n)

/-- The four bytes of the instruction at `pc`, or the first address that has none. -/
def fetchBytes (l : Len) (s : State) : Except Nat (List Byte) :=
  match fetchByte l s 0, fetchByte l s 1, fetchByte l s 2, fetchByte l s 3 with
  | .ok b0, .ok b1, .ok b2, .ok b3 => .ok [b0, b1, b2, b3]
  | .error a, _, _, _ => .error a
  | _, .error a, _, _ => .error a
  | _, _, .error a, _ => .error a
  | _, _, _, .error a => .error a

/-- Store the four bytes of a word where the hart fetches its next instruction. -/
def storeWordAtPc (l : Len) (w : InsnWord) (s : State) : State :=
  { s with
    mem :=
      Memory.write
        (Memory.write
          (Memory.write
            (Memory.write s.mem (codeAddress l s 0) (w.extractLsb' 0 8))
            (codeAddress l s 1) (w.extractLsb' 8 8))
          (codeAddress l s 2) (w.extractLsb' 16 8))
        (codeAddress l s 3) (w.extractLsb' 24 8) }

/-- Let the hart run next: no exception awaits the trap mechanism, and where inputs wait, the first of them lets the
hart run before them. -/
def hartRunsNext (s : State) : State :=
  { s with
    trap := none
    inputs :=
      match s.inputs with
      | [] => []
      | i :: rest => .run :: i :: rest }

end Sys2Proof.Machine
end

