-- ==== Sys2Proof/Machine/Hart.lean ====
section
/-!
DEFINITION. The hart executing one instruction: fetch, decode, execute.
-/

namespace Sys2Proof.Machine

/-- One instruction of the hart. While a raised exception awaits the trap mechanism the hart has no next instruction
that this spec knows (60_exceptions.md R86); without a length there is no access (00_scope.md R4). -/
def runInstruction (s : State) : Host.Outcome State Fault Refusal :=
  match s.trap with
  | some e => .refused (.controlWithTrapMechanism e)
  | none =>
    match lenOf s.mxl with
    | none => .refused (.mxlWithoutLength s.mxl)
    | some l =>
      match fetchBytes l s with
      | .error a => .fault (.fetchOfUnwrittenByte a)
      | .ok bytes =>
        match decodeBytes bytes with
        | .error e => .refused (.undecodable e)
        | .ok (i, _) => exec i s

end Sys2Proof.Machine
end

