-- ==== Sys2Proof/Machine/Step.lean ====
section
/-!
DEFINITION. One step of the machine, and the placing of an instruction where the next step fetches it.
-/

namespace Sys2Proof.Machine

/-- One step: the first waiting input if there is one, else one instruction of the hart. The input `run` is one
instruction of the hart. Agents act one at a time (00_scope.md R9; DESIGN CHOICE, log entry 4). -/
def step (s : State) : Host.Outcome State Fault Refusal :=
  match s.inputs with
  | [] => runInstruction s
  | .run :: rest => runInstruction { s with inputs := rest }
  | i :: rest => .next (applyInput i { s with inputs := rest })

/-- `s` with an instruction word stored where the next step fetches (DESIGN CHOICE, log entry 10). -/
def State.withFetchWord (s : State) (nbits w : Nat) : State :=
  match lenOf s.mxl with
  | none => s
  | some l => hartRunsNext (storeWordAtPc l (tableWord nbits w) s)

end Sys2Proof.Machine
end

