-- ==== Sys2Proof/Machine/CoreRun.lean ====
section
/-!
DEFINITION. `pmpcfg12` alone: a run is a finite sequence of the core operations, and what it lets be observed is the
final `S` and the values the reads returned (70_reset_and_hazards.md R103). The length is an input of each operation.
-/

namespace Sys2Proof.Machine

/-- The three operations on `pmpcfg12`, each with the length it happens at (70_reset_and_hazards.md R103). -/
inductive CoreOp
  | reset
  | swRead (l : Len)
  | swWrite (l : Len) (value : BitVec l.bits)
  deriving DecidableEq, Repr

/-- The register after one core operation (40_csr_access.md R60, R61; 70_reset_and_hazards.md R95). -/
def coreStep (p : Params) (o : CoreOp) (S : Word64) : Word64 :=
  match o with
  | .reset => resetValue
  | .swRead _ => S
  | .swWrite l value => swWrite p l value S

/-- What one core operation returns: a read its value, the others nothing. -/
def coreResult (o : CoreOp) (S : Word64) : List Observation :=
  match o with
  | .reset => []
  | .swRead l => [.read l (swRead l S)]
  | .swWrite _ _ => []

/-- A run of core operations: the final register and the values returned, first first (70_reset_and_hazards.md R103). -/
def coreRun (p : Params) : List CoreOp → Word64 → Word64 × List Observation
  | [], S => (S, [])
  | o :: rest, S =>
    let after := coreRun p rest (coreStep p o S)
    (after.1, coreResult o S ++ after.2)

end Sys2Proof.Machine
end

