-- ==== Sys2Proof/Machine/Pmp.lean ====
section
/-!
DEFINITION. What the fields mean for memory accesses, as far as the spec says it: the decode of a field into an entry,
the length and alignment of its region, and the verdict of one entry on an access that the entry's region matches
(20_memory.md R37 to R43, R45). Where a region lies and which entry decides are not in the spec (R44), so no step of the
machine asks for a verdict.
-/

namespace Sys2Proof.Machine

/-- The address-matching mode `A` (10_state.md R19). -/
inductive AddressMode
  | off
  | tor
  | na4
  | napot
  deriving DecidableEq, Repr

/-- The encodings of `A`: 0, 1, 2, 3 (10_state.md R19). -/
def addressModeOf (b : BitVec 2) : AddressMode :=
  if b = 0#2 then .off else if b = 1#2 then .tor else if b = 2#2 then .na4 else .napot

/-- The length in bytes of the region a mode selects, where the spec gives one: a null region for OFF, four bytes
for NA4; those of TOR and NAPOT come from address registers that are not in the spec (20_memory.md R39, R44). -/
def regionBytes : AddressMode → Option Nat
  | .off => some 0
  | .tor => none
  | .na4 => some 4
  | .napot => none

/-- The number of bytes that the lowest address of a mode's region is a multiple of, where the spec gives one: an NA4
region is aligned to four bytes (20_memory.md R39, R44). -/
def regionAlignment : AddressMode → Option Nat
  | .off => none
  | .tor => none
  | .na4 => some 4
  | .napot => none

/-- The `bytes` addresses from `base` upward have the length and the alignment the spec gives a region of this mode;
where it gives none, none is asked (20_memory.md R39, R44). -/
def isRegionOf (A : AddressMode) (base bytes : Nat) : Bool :=
  (regionBytes A).all (fun n => bytes == n) && (regionAlignment A).all (fun n => base % n == 0)

/-- An entry's configuration as the record `decode_entry` gives (20_memory.md R37). -/
structure Entry where
  L : Bool
  A : AddressMode
  X : Bool
  W : Bool
  R : Bool
  deriving DecidableEq, Repr

/-- `decode_entry(c)`, total on all bytes; bits 6:5 carry no meaning (20_memory.md R37). -/
def decodeEntry (c : Byte) : Entry :=
  { L := c.getLsbD 7
    A := addressModeOf (addressModeBits c)
    X := c.getLsbD 2
    W := c.getLsbD 1
    R := c.getLsbD 0 }

/-- The configuration of entry `48 + k` as PMP checks read it: from `S`, whatever the length is, and the new value from
the next operation on (20_memory.md R44, R45, R47). -/
def entryOf (s : State) (k : Fin 8) : Entry := decodeEntry (cfg s.pmpcfg12 k)

/-- The kinds of access the permission bits govern (20_memory.md R40 to R42). -/
inductive AccessKind
  | fetch
  | load
  | store
  | amo
  deriving DecidableEq, Repr

/-- The permission bit that governs an access: `X` fetches, `R` loads, `W` stores and AMOs (20_memory.md R40 to R42). -/
def Entry.grants (e : Entry) : AccessKind → Bool
  | .fetch => e.X
  | .load => e.R
  | .store => e.W
  | .amo => e.W

/-- The access fault of a kind of access (60_exceptions.md R80). -/
def accessFault (address : Word64) : AccessKind → Exception
  | .fetch => .instructionAccessFault address
  | .load => .loadAccessFault address
  | .store => .storeAmoAccessFault address
  | .amo => .storeAmoAccessFault address

/-- `A` = OFF: the entry matches no address (20_memory.md R39). -/
def Entry.disabled (e : Entry) : Bool := e.A == .off

/-- The entry's checks apply to accesses made in this mode: below M always, in M when `L` is set (20_memory.md R38). -/
def Entry.appliesIn (e : Entry) : Mode → Bool
  | .M => e.L
  | .belowM => true

/-- What one entry says of an access. -/
inductive Verdict
  /-- The entry is disabled and matches no address (20_memory.md R39). -/
  | noMatch
  /-- The entry is not applied to the access; what follows is not in the spec (20_memory.md R38, R44). -/
  | notApplied
  /-- The governing permission bit is set (20_memory.md R43). -/
  | allowed
  /-- The governing permission bit is clear: the access raises this (60_exceptions.md R80). -/
  | denied (e : Exception)
  /-- `R` = 0 with `W` = 1: no meaning, refused (20_memory.md R43; decision D22). Safe. -/
  | refusedReservedPermissions
  deriving DecidableEq, Repr

/-- The verdict of one entry on an access in a mode to an address that its region, if it has one, matches
(20_memory.md R38 to R43). -/
def Entry.verdict (e : Entry) (mode : Mode) (kind : AccessKind) (address : Word64) : Verdict :=
  if e.disabled then .noMatch
  else if !e.appliesIn mode then .notApplied
  else if !e.R && e.W then .refusedReservedPermissions
  else if e.grants kind then .allowed
  else .denied (accessFault address kind)

end Sys2Proof.Machine
end

