-- ==== Sys2Proof/Safety.lean ====
section
/-!
DEFINITION. The terms claims are written in: the invariant of the register, the invariant of the machine's state, the
frame of an instruction, the core operations a step performs, and runs.
-/

namespace Sys2Proof.Machine

/-- What every field satisfies in every reachable state: (a) bits 6:5 are 0, (b) not the reserved permissions, (c) not
NA4 where it is not valid, (d) 0 where the field is read-only (10_state.md R22). -/
def legalField (p : Params) (k : Fin 8) (c : Byte) : Bool :=
  c.extractLsb' 5 2 == 0#2 && !reservedPermissions c && !invalidNa4 p c && (!isReadOnly p k || c == 0#8)

/-- The state invariant of the register (10_state.md R22). -/
def LegalRegister (p : Params) (S : Word64) : Prop := ∀ k : Fin 8, legalField p k (cfg S k) = true

/-- The invariant of the machine's state: the register is legal and memory has its canonical form. -/
def Inv (s : State) : Prop := LegalRegister s.params s.pmpcfg12 ∧ Memory.wf s.mem = true

/-- The next step consumes a reset event. -/
def resetNext (s : State) : Bool :=
  match s.inputs with
  | .reset _ :: _ => true
  | _ => false

/-- The next step is one instruction of the hart. -/
def hartNext (s : State) : Bool :=
  match s.inputs with
  | [] => true
  | .run :: _ => true
  | _ => false

/-- The state the hart's instruction runs in: the input that lets the hart run is gone. -/
def hartState (s : State) : State := { s with inputs := s.inputs.tail }

/-- Everything an instruction of this hardware leaves unchanged in every case: the parameters, MXL, the mode, every
byte of memory, the trap outcome and the waiting inputs. -/
def SameSurroundings (s t : State) : Prop :=
  t.params = s.params ∧ t.mxl = s.mxl ∧ t.mode = s.mode ∧ t.mem = s.mem ∧
    (∀ a : Nat, Memory.read t.mem a = Memory.read s.mem a) ∧ t.trap = s.trap ∧ t.inputs = s.inputs

/-- A general register holds the same 64 bits of storage in both states. -/
def SameX (s t : State) (r : Reg) : Prop := readX .len64 r t = readX .len64 r s

/-- What an instruction in mode M leaves (40_csr_access.md R65), for an instruction with destination `rd` that reads
the CSR or not, and attempts to write a value to it or not. Each field is what the write function makes of its old
value and its slice of the zero-extended value, or unchanged; `rd` receives the old value of the CSR if the CSR was
read, a write to `x0` being discarded, and every other general register is unchanged; `pc` advances by 4 modulo
`2^len()`; the accesses are observed, the read before the write; nothing else changes. -/
def CsrResult (l : Len) (rd : Reg) (reads : Bool) (written : Option (BitVec l.bits)) (s t : State) : Prop :=
  (∀ k : Fin 8, cfg t.pmpcfg12 k =
    match written with
    | none => cfg s.pmpcfg12 k
    | some v => writeField s.params l k (cfg s.pmpcfg12 k) (cfg (v.setWidth 64) k)) ∧
  (∀ r : Reg, if r = rd ∧ rd ≠ 0 ∧ reads = true then readX l r t = swRead l s.pmpcfg12 else SameX s t r) ∧
  t.pc = (pcOf l s + 4#l.bits).setWidth 64 ∧
  t.observed =
    (match written with
      | none => []
      | some v => [Observation.write l v]) ++
    (if reads then [Observation.read l (swRead l s.pmpcfg12)] else []) ++ s.observed ∧
  SameSurroundings s t

/-- `t` is reached from `s` by steps none of which consumes a reset event. -/
inductive RunsWithoutReset : State → State → Prop
  | refl (s : State) : RunsWithoutReset s s
  | tail {s t u : State} : RunsWithoutReset s t → resetNext t = false → step t = .next u → RunsWithoutReset s u

/-- The observations that are values a read returned. -/
def readsIn (os : List Observation) : List Observation :=
  os.filter fun o =>
    match o with
    | .read _ _ => true
    | .write _ _ => false
    | .raised _ => false

/-- What a step from `s` to `t` lets be observed, first first: the observations of `t` that stand before those of
`s`. -/
def newlyObserved (s t : State) : List Observation :=
  (t.observed.take (t.observed.length - s.observed.length)).reverse

/-- The core operation that an observation is the access of; the raising of an exception is none
(70_reset_and_hazards.md R103). -/
def accessOf : Observation → Option CoreOp
  | .read l _ => some (.swRead l)
  | .write l value => some (.swWrite l value)
  | .raised _ => none

/-- The core operations that a step from `s` to `t` performs, first first: RESET where the step is a reset event, the
accesses newly observed where it is an instruction of the hart, none where it is any other input
(70_reset_and_hazards.md R103). -/
def stepOps (s t : State) : List CoreOp :=
  if resetNext s then [.reset]
  else if hartNext s then (newlyObserved s t).filterMap accessOf
  else []

/-- `t` is reached from `s` by steps, reset events among them, that perform these core operations, first first. -/
inductive RunsBy : State → List CoreOp → State → Prop
  | refl (s : State) : RunsBy s [] s
  | tail {s t u : State} {ops : List CoreOp} :
      RunsBy s ops t → step t = .next u → RunsBy s (ops ++ stepOps t u) u

end Sys2Proof.Machine
end

