-- ==== Sys2Proof/Certificates/Slice0/Obligations.lean ====
section
/-!
DEFINITION. The statements for the provers. Each docstring names the rule of spec/ the statement comes from, and says
where it rests on a choice of the model's.
-/

open Sys2Proof Sys2Proof.Machine

/-! ### Encoding -/

/-- Decoding the bytes of a well-formed instruction gives it back, and the bytes after it (30_encoding.md R51 to R53,
R57). -/
def Obligations.DecodeOfEncodeIsIdentity : Prop :=
  ∀ (i : Instr) (rest : List Byte), i.wellFormed = true → decodeBytes (encode i ++ rest) = .ok (i, rest)

/-- A word that decodes is the word of the instruction it decodes to, and that instruction is well formed, so every
accepted word has one meaning and no bit of it is dropped (30_encoding.md R52, R53, R57). -/
def Obligations.EncodeOfDecodeIsIdentity : Prop :=
  ∀ (w : InsnWord) (i : Instr), decodeWord w = .ok i → i.wellFormed = true ∧ encodeWord i = w

/-- The decoder field by field: opcode 1110011 and CSR 0x3ac, then `funct3` selects one of the six instructions, with
`rd` from bits 11:7 and `rs1` or `uimm` from bits 19:15; `funct3` 000 and 100, any other opcode and any other CSR are
no access to pmpcfg12 (30_encoding.md R51 to R53, R57). -/
def Obligations.DecoderSelectsByOpcodeCsrAndFunct3 : Prop :=
  ∀ w : InsnWord,
    (w.extractLsb' 0 7 = 0b1110011#7 ∧ w.extractLsb' 20 12 = 0x3ac#12 →
      decodeWord w =
        let rd : Reg := ⟨(w.extractLsb' 7 5).toNat, (w.extractLsb' 7 5).isLt⟩
        let rs1 : Reg := ⟨(w.extractLsb' 15 5).toNat, (w.extractLsb' 15 5).isLt⟩
        let uimm : Uimm := w.extractLsb' 15 5
        if w.extractLsb' 12 3 = 0b001#3 then .ok (.csrrw rd 0x3ac#12 rs1)
        else if w.extractLsb' 12 3 = 0b010#3 then .ok (.csrrs rd 0x3ac#12 rs1)
        else if w.extractLsb' 12 3 = 0b011#3 then .ok (.csrrc rd 0x3ac#12 rs1)
        else if w.extractLsb' 12 3 = 0b101#3 then .ok (.csrrwi rd 0x3ac#12 uimm)
        else if w.extractLsb' 12 3 = 0b110#3 then .ok (.csrrsi rd 0x3ac#12 uimm)
        else if w.extractLsb' 12 3 = 0b111#3 then .ok (.csrrci rd 0x3ac#12 uimm)
        else .error (.notAnAccessToPmpcfg12 w)) ∧
    (¬(w.extractLsb' 0 7 = 0b1110011#7 ∧ w.extractLsb' 20 12 = 0x3ac#12) →
      decodeWord w = .error (.notAnAccessToPmpcfg12 w))

/-- One word of each instruction, from the spec's listings, decodes to the instruction it stands for
(95_test_vectors.md section 4: I1, I3, I7, I11, I14, I17). -/
def Obligations.ListedWordsDecode : Prop :=
  decodeTableWord 32 0x3ac312f3 = some (.csrrw 5 0x3ac#12 6) ∧
  decodeTableWord 32 0x3ac3a373 = some (.csrrs 6 0x3ac#12 7) ∧
  decodeTableWord 32 0x3ac3b373 = some (.csrrc 6 0x3ac#12 7) ∧
  decodeTableWord 32 0x3acfd2f3 = some (.csrrwi 5 0x3ac#12 31#5) ∧
  decodeTableWord 32 0x3ac16073 = some (.csrrsi 0 0x3ac#12 2#5) ∧
  decodeTableWord 32 0x3acc7373 = some (.csrrci 6 0x3ac#12 24#5)

/-! ### The machine's step -/

/-- Where the hart runs next, no exception awaits the trap mechanism, there is a length, and the four bytes from `pc`
upward (modulo `2^len()`, the first holding bits 7:0) decode to an instruction, the step is that instruction's `exec`
in the state without the input that lets the hart run (30_encoding.md R51, R57; the fetch from memory is the model's,
log entries 4 and 9). -/
def Obligations.StepRunsTheDecodedInstruction : Prop :=
  ∀ (s : State) (l : Len) (b : Fin 4 → Byte) (i : Instr),
    hartNext s = true → s.trap = none → lenOf s.mxl = some l →
    (∀ n : Fin 4, Memory.read s.mem (pcOf l s + BitVec.ofNat l.bits n.val).toNat = some (b n)) →
    decodeWord (b 3 ++ b 2 ++ b 1 ++ b 0) = .ok i →
    step s = exec i (hartState s)

/-- The same bytes, where under the mask they are none of the six match values, refuse the step by the name `not an
access to pmpcfg12` with their word
(30_encoding.md R57; log entry 9 for the fetch). -/
def Obligations.StepRefusesOtherWords : Prop :=
  ∀ (s : State) (l : Len) (b : Fin 4 → Byte),
    hartNext s = true → s.trap = none → lenOf s.mxl = some l →
    (∀ n : Fin 4, Memory.read s.mem (pcOf l s + BitVec.ofNat l.bits n.val).toNat = some (b n)) →
    (b 3 ++ b 2 ++ b 1 ++ b 0) &&& 0xfff0707f#32 ∉
      [0x3ac01073#32, 0x3ac02073#32, 0x3ac03073#32, 0x3ac05073#32, 0x3ac06073#32, 0x3ac07073#32] →
    step s = .refused (.undecodable (.notAnAccessToPmpcfg12 (b 3 ++ b 2 ++ b 1 ++ b 0)))

/-- A fetch that meets a byte nothing has stored faults at the first such byte: the model's choice (log entry 9), since
the spec gives memory no contents (20_memory.md R30, R36). -/
def Obligations.FetchFaultsAtTheFirstUnwrittenByte : Prop :=
  ∀ (s : State) (l : Len) (n : Fin 4),
    hartNext s = true → s.trap = none → lenOf s.mxl = some l →
    Memory.read s.mem (pcOf l s + BitVec.ofNat l.bits n.val).toNat = none →
    (∀ m : Fin 4, m < n → Memory.read s.mem (pcOf l s + BitVec.ofNat l.bits m.val).toNat ≠ none) →
    step s = .fault (.fetchOfUnwrittenByte (pcOf l s + BitVec.ofNat l.bits n.val).toNat)

/-- An instruction placed by withFetchWord is what the very next step runs, with the memory it was stored in, with the
inputs that waited still waiting and no exception pending: the model's own interface (log entry 10). -/
def Obligations.PlacedWordRunsNext : Prop :=
  ∀ (s : State) (l : Len) (nbits w : Nat) (i : Instr),
    lenOf s.mxl = some l → decodeTableWord nbits w = some i →
    step (s.withFetchWord nbits w) =
      exec i { s with mem := (s.withFetchWord nbits w).mem, trap := none }

/-- No step of the machine, and so no instruction and no input, changes the two parameters: they are fixed for the life
of the machine (00_scope.md R2, R3). -/
def Obligations.ParametersAreFixed : Prop :=
  ∀ s t : State, step s = .next t → t.params = s.params

/-! ### Invariants -/

/-- Every step keeps the invariant: every field is legal (10_state.md R22) and memory keeps its canonical form. -/
def Obligations.StepKeepsInvariant : Prop :=
  ∀ s t : State, Inv s → step s = .next t → Inv t

/-- The state after reset meets the invariant, whatever the parameters are (10_state.md R22, R25). -/
def Obligations.ResetMeetsInvariant : Prop := Inv State.reset

/-- In every register reachable from reset by the core operations every field is legal: (a) bits 6:5 are 0, (b) not
`R` = 0 with `W` = 1, (c) not `A` = 2 while `PMP_GRANULARITY >= 2`, (d) 0 while `NUM_PMP_ENTRIES <= 48 + k`
(10_state.md R16, R22). -/
def Obligations.ReachableFieldsAreLegal : Prop :=
  ∀ (p : Params) (ops : List CoreOp) (k : Fin 8),
    let c := cfg (coreRun p ops resetValue).1 k
    c &&& 0x60#8 = 0#8 ∧ ¬(c &&& 0x01#8 = 0#8 ∧ c &&& 0x02#8 = 0x02#8) ∧
      (2 ≤ p.pmpGranularity → c &&& 0x18#8 ≠ 0x10#8) ∧ (p.numPmpEntries ≤ 48 + k.val → c = 0#8)

/-- A field that is locked keeps its value in every later state up to the next reset event, whatever the program, the
modes and the lengths are (40_csr_access.md R73; 10_state.md R17). -/
def Obligations.LockedFieldIsConstantUntilReset : Prop :=
  ∀ (s t : State) (k : Fin 8),
    RunsWithoutReset s t → cfg s.pmpcfg12 k &&& 0x80#8 ≠ 0#8 → cfg t.pmpcfg12 k = cfg s.pmpcfg12 k

/-- The register is written by two operations only: a step that changes it is a reset event, which leaves 0, or an
instruction of the hart in mode M that makes a software write at the current length (10_state.md R24; 60_exceptions.md
R93). -/
def Obligations.OnlySoftwareWriteAndResetWriteTheRegister : Prop :=
  ∀ s t : State, step s = .next t → t.pmpcfg12 ≠ s.pmpcfg12 →
    (resetNext s = true ∧ t.pmpcfg12 = 0#64) ∨
    (hartNext s = true ∧ s.mode = .M ∧ ∃ (l : Len) (v : BitVec l.bits), lenOf s.mxl = some l ∧
      t.pmpcfg12 = swWrite s.params l v s.pmpcfg12 ∧ Observation.write l v ∈ t.observed)

/-- A step is, on the register, exactly its own core operations: RESET for a reset event, the SWREADs and SWWRITEs that
the step adds to the observations, in their order, for an instruction of the hart, and none for any other input. From
the register before the step they leave the register after it and return the values that the step's reads returned.
The earlier observations stay, and only an instruction of the hart adds any (70_reset_and_hazards.md R103;
40_csr_access.md R65; the log of observations is the model's, log entry 8). -/
def Obligations.EveryStepIsItsCoreOperations : Prop :=
  ∀ s t : State, step s = .next t →
    coreRun s.params (stepOps s t) s.pmpcfg12 = (t.pmpcfg12, readsIn (newlyObserved s t)) ∧
    t.observed = (newlyObserved s t).reverse ++ s.observed ∧
    (hartNext s = false → newlyObserved s t = [])

/-- A run of the machine is, on the register, the run of the core operations that its steps perform, one step's after
the other's (RESET for a reset event, the accesses an instruction adds to the observations, none for any other input):
at the parameters of the machine they take the register from its first value to its last and return the values that
the run's reads returned, in order (70_reset_and_hazards.md R103; 40_csr_access.md R65; the log of observations is the
model's, log entry 8). -/
def Obligations.EveryRunIsARunOfCoreOperations : Prop :=
  ∀ (s t : State) (ops : List CoreOp), RunsBy s ops t →
    (coreRun s.params ops s.pmpcfg12).1 = t.pmpcfg12 ∧
      readsIn t.observed = (coreRun s.params ops s.pmpcfg12).2.reverse ++ readsIn s.observed

/-- Below M no instruction of the hart changes the register, a general register or `pc` (60_exceptions.md R81). -/
def Obligations.NothingBelowMChangesTheRegister : Prop :=
  ∀ s t : State, s.mode = .belowM → hartNext s = true → step s = .next t →
    t.pmpcfg12 = s.pmpcfg12 ∧ (∀ r : Reg, SameX s t r) ∧ t.pc = s.pc

/-- The one exception a step raises is IllegalInstruction, by an instruction of the hart below M, with that
instruction's word: the word that the four bytes from `pc` upward make, which decodes to the instruction whose `exec`
the step is (60_exceptions.md R81, R82; the fetch from memory is the model's, log entry 9). -/
def Obligations.OnlyIllegalInstructionIsRaised : Prop :=
  ∀ (s t : State) (e : Exception), step s = .next t → t.trap = some e → s.trap ≠ some e →
    hartNext s = true ∧ s.mode = .belowM ∧
      ∃ (l : Len) (b : Fin 4 → Byte) (i : Instr), lenOf s.mxl = some l ∧
        (∀ n : Fin 4, Memory.read s.mem (pcOf l s + BitVec.ofNat l.bits n.val).toNat = some (b n)) ∧
        decodeWord (b 3 ++ b 2 ++ b 1 ++ b 0) = .ok i ∧ exec i (hartState s) = .next t ∧
        e = .illegalInstruction (b 3 ++ b 2 ++ b 1 ++ b 0)

/-! ### The core operations -/

/-- The per-field write function in the source's own masks: the written byte without bits 6:5 when the field is `RW-R`
and inside the register, the old value's lock bit is clear, the new value is not `R` = 0 with `W` = 1, and NA4 is legal
or not asked for; the old value otherwise (40_csr_access.md R62). -/
def Obligations.WriteFieldFollowsTheSourceMasks : Prop :=
  ∀ (p : Params) (l : Len) (k : Fin 8) (old new : Byte),
    writeField p l k old new =
      if p.numPmpEntries > 48 + k.val ∧ 8 * k.val + 7 < l.bits ∧ old &&& 0x80#8 = 0#8 ∧
          ¬(new &&& 0x01#8 = 0#8 ∧ new &&& 0x02#8 = 0x02#8) ∧
          (p.pmpGranularity < 2 ∨ new &&& 0x18#8 ≠ 0x10#8)
      then new &&& 0x9f#8
      else old

/-- Every field after a software write is the write function of its old value and its slice of the value extended to
64 bits, and the bits of the extension are not observable: any 64 bits whose low `len()` bits are the value give the
same (40_csr_access.md R61). -/
def Obligations.SoftwareWriteIsFieldByField : Prop :=
  ∀ (p : Params) (l : Len) (value : BitVec l.bits) (v S : Word64) (k : Fin 8),
    v.setWidth l.bits = value →
    cfg (swWrite p l value S) k = writeField p l k (cfg S k) (cfg v k)

/-- A software read returns the fields at their locations: all eight at length 64, the four lowest at length 32
(40_csr_access.md R60). -/
def Obligations.SoftwareReadIsTheFields : Prop :=
  ∀ S : Word64,
    swRead .len64 S =
      cfg S 7 ++ cfg S 6 ++ cfg S 5 ++ cfg S 4 ++ cfg S 3 ++ cfg S 2 ++ cfg S 1 ++ cfg S 0 ∧
    swRead .len32 S = cfg S 3 ++ cfg S 2 ++ cfg S 1 ++ cfg S 0

/-- The length is 32 when MXL is 0 and 64 when it is 1, and what software sees is bits 31:0 of `S` or all of it
(10_state.md R13). -/
def Obligations.LengthFollowsMxl : Prop :=
  lenOf 0 = some .len32 ∧ Len.len32.bits = 32 ∧ lenOf 1 = some .len64 ∧ Len.len64.bits = 64 ∧
    ∀ S : Word64, swRead .len32 S = S.extractLsb' 0 32 ∧ swRead .len64 S = S

/-- The sub-fields of field `k` stand at register bits `8k` to `8k+7`, and their masks in the field are those of the
source; the entry's `A` is the mode that bits `8k+4:8k+3` encode (10_state.md R12; for the entry, 20_memory.md R37). -/
def Obligations.SubfieldsStandWhereTheyShould : Prop :=
  ∀ (S : Word64) (k : Fin 8),
    let e := decodeEntry (cfg S k)
    e.R = S.getLsbD (8 * k.val) ∧ e.W = S.getLsbD (8 * k.val + 1) ∧ e.X = S.getLsbD (8 * k.val + 2) ∧
    addressModeBits (cfg S k) = S.extractLsb' (8 * k.val + 3) 2 ∧
    e.A = addressModeOf (S.extractLsb' (8 * k.val + 3) 2) ∧
    (cfg S k).extractLsb' 5 2 = S.extractLsb' (8 * k.val + 5) 2 ∧ e.L = S.getLsbD (8 * k.val + 7) ∧
    (e.R = true ↔ cfg S k &&& 0x01#8 ≠ 0#8) ∧ (e.W = true ↔ cfg S k &&& 0x02#8 ≠ 0#8) ∧
    (e.X = true ↔ cfg S k &&& 0x04#8 ≠ 0#8) ∧ (e.L = true ↔ cfg S k &&& 0x80#8 ≠ 0#8) ∧
    (cfg S k &&& 0x18#8 = (addressModeBits (cfg S k)).setWidth 8 <<< 3) ∧
    (cfg S k &&& 0x60#8 = ((cfg S k).extractLsb' 5 2).setWidth 8 <<< 5)

/-- The reserved combination is never stored: a new value with bit 0 clear and bit 1 set leaves the whole field
unchanged whatever its other bits are, and the values of `X W R` that are not reserved are 000, 001, 011, 100, 101 and
111 (10_state.md R21). -/
def Obligations.ReservedCombinationIsNeverStored : Prop :=
  (∀ (p : Params) (l : Len) (k : Fin 8) (old new : Byte),
    new.getLsbD 0 = false → new.getLsbD 1 = true → writeField p l k old new = old) ∧
  (∀ c : Byte, reservedPermissions c = false ↔
    c.extractLsb' 0 3 ∈ [0b000#3, 0b001#3, 0b011#3, 0b100#3, 0b101#3, 0b111#3])

/-- `A` is 0 OFF, 1 TOR, 2 NA4, 3 NAPOT; all four can be stored when `PMP_GRANULARITY < 2`; when it is 2 or more a new
value with `A` = 2 leaves the whole field unchanged and the other three can be stored (10_state.md R19). -/
def Obligations.AddressModeEncodingsAndLegality : Prop :=
  addressModeOf 0#2 = .off ∧ addressModeOf 1#2 = .tor ∧ addressModeOf 2#2 = .na4 ∧ addressModeOf 3#2 = .napot ∧
  (∀ (p : Params) (l : Len) (k : Fin 8) (old new : Byte),
    2 ≤ p.pmpGranularity → new.extractLsb' 3 2 = 2#2 → writeField p l k old new = old) ∧
  (∀ (p : Params) (k : Fin 8) (a : BitVec 2),
    48 + k.val < p.numPmpEntries → (p.pmpGranularity < 2 ∨ a ≠ 2#2) →
    addressModeBits (writeField p .len64 k 0#8 (a.setWidth 8 <<< 3)) = a)

/-- After reset all 64 bits are 0, so in every entry 48 to 55 `L` = 0, `A` = OFF and `X` = `W` = `R` = 0
(10_state.md R25). -/
def Obligations.ResetValueIsZero : Prop :=
  State.reset.pmpcfg12 = 0#64 ∧
    ∀ k : Fin 8, cfg State.reset.pmpcfg12 k = 0#8 ∧
      entryOf State.reset k = { L := false, A := .off, X := false, W := false, R := false }

/-- The reset event writes 0 to all 64 bits, from any register, locked fields too, at any length
(70_reset_and_hazards.md R95). -/
def Obligations.ResetEventClearsTheRegister : Prop :=
  (∀ (p : Params) (S : Word64), coreStep p .reset S = 0#64) ∧
  ∀ (s : State) (launch : Launch) (rest : List Input), s.inputs = .reset launch :: rest →
    ∃ t, step s = .next t ∧ t.pmpcfg12 = 0#64

/-- What else the reset event leaves, all of it the model's choice (log entry 7): MXL, mode, `pc` and the general
registers are what the launch says, no exception is pending, and memory, the other inputs and the observations stay. -/
def Obligations.ResetEventTakesItsLaunch : Prop :=
  ∀ (s : State) (launch : Launch) (rest : List Input), s.inputs = .reset launch :: rest →
    ∃ t, step s = .next t ∧ t.mxl = launch.mxl ∧ t.mode = launch.mode ∧ t.pc = launch.pc ∧ t.x = launch.x ∧
      t.trap = none ∧ t.inputs = rest ∧ t.mem = s.mem ∧ t.observed = s.observed

/-! ### Laws of the core operations -/

/-- Writing back what was read changes nothing, at both lengths, in every legal register (40_csr_access.md R72). -/
def Obligations.WriteBackChangesNothing : Prop :=
  ∀ (p : Params) (l : Len) (S : Word64), LegalRegister p S → swWrite p l (swRead l S) S = S

/-- The new value of a field depends on its own old value and its own slice of the written value only
(40_csr_access.md R74). -/
def Obligations.FieldsAreIndependent : Prop :=
  ∀ (p : Params) (l : Len) (v v' : BitVec l.bits) (S S' : Word64) (k : Fin 8),
    cfg S k = cfg S' k → cfg (v.setWidth 64) k = cfg (v'.setWidth 64) k →
    cfg (swWrite p l v S) k = cfg (swWrite p l v' S') k

/-- A second identical write changes nothing, from any register (40_csr_access.md R74). -/
def Obligations.SecondIdenticalWriteChangesNothing : Prop :=
  ∀ (p : Params) (l : Len) (v : BitVec l.bits) (S : Word64),
    swWrite p l v (swWrite p l v S) = swWrite p l v S

/-- A write at length 32 leaves bits 63:32 unchanged, so the fields pmp52cfg to pmp55cfg keep their values
(10_state.md R14; 40_csr_access.md R74). -/
def Obligations.UpperHalfIsKeptAtLength32 : Prop :=
  ∀ (p : Params) (v : BitVec Len.len32.bits) (S : Word64),
    (swWrite p .len32 v S).extractLsb' 32 32 = S.extractLsb' 32 32

/-- In a run of core operations a read returns the low `len()` bits of the register the operations before it left: one
agent, program order (20_memory.md R46; decision D15). -/
def Obligations.ReadReturnsTheLatestRegister : Prop :=
  ∀ (p : Params) (ops : List CoreOp) (l : Len) (S : Word64),
    coreRun p (ops ++ [.swRead l]) S =
      ((coreRun p ops S).1, (coreRun p ops S).2 ++ [.read l (swRead l (coreRun p ops S).1)])

/-- There are 48 legal values of a field when `PMP_GRANULARITY < 2` and 36 when it is 2 or more, for a field of type
`RW-R` (10_state.md R22). -/
def Obligations.LegalFieldValuesAreCounted : Prop :=
  ∀ (p : Params) (k : Fin 8), 48 + k.val < p.numPmpEntries →
    ((List.range 256).filter fun n => legalField p k (BitVec.ofNat 8 n)).length =
      if p.pmpGranularity < 2 then 48 else 36

/-! ### The six instructions -/

/-- csrrw in mode M (40_csr_access.md R65, R66). -/
def Obligations.CsrrwReadsAndWrites : Prop :=
  ∀ (l : Len) (rd rs1 : Reg) (s : State), lenOf s.mxl = some l → s.mode = .M →
    ∃ t, exec (.csrrw rd 0x3ac#12 rs1) s = .next t ∧
      CsrResult l rd (decide (rd ≠ 0)) (some (readX l rs1 s)) s t

/-- csrrs in mode M: with `rs1` = `x0` there is no write (40_csr_access.md R65, R67). -/
def Obligations.CsrrsReadsAndSets : Prop :=
  ∀ (l : Len) (rd rs1 : Reg) (s : State), lenOf s.mxl = some l → s.mode = .M →
    ∃ t, exec (.csrrs rd 0x3ac#12 rs1) s = .next t ∧
      CsrResult l rd true (if rs1 = 0 then none else some (swRead l s.pmpcfg12 ||| readX l rs1 s)) s t

/-- csrrc in mode M: with `rs1` = `x0` there is no write (40_csr_access.md R65, R68). -/
def Obligations.CsrrcReadsAndClears : Prop :=
  ∀ (l : Len) (rd rs1 : Reg) (s : State), lenOf s.mxl = some l → s.mode = .M →
    ∃ t, exec (.csrrc rd 0x3ac#12 rs1) s = .next t ∧
      CsrResult l rd true (if rs1 = 0 then none else some (swRead l s.pmpcfg12 &&& ~~~(readX l rs1 s))) s t

/-- csrrwi in mode M: the immediate is zero-extended (40_csr_access.md R65, R69; 30_encoding.md R52). -/
def Obligations.CsrrwiReadsAndWrites : Prop :=
  ∀ (l : Len) (rd : Reg) (uimm : Uimm) (s : State), lenOf s.mxl = some l → s.mode = .M →
    ∃ t, exec (.csrrwi rd 0x3ac#12 uimm) s = .next t ∧
      CsrResult l rd (decide (rd ≠ 0)) (some (BitVec.ofNat l.bits uimm.toNat)) s t

/-- csrrsi in mode M: with an immediate of 0 there is no write (40_csr_access.md R65, R70; 30_encoding.md R52). -/
def Obligations.CsrrsiReadsAndSets : Prop :=
  ∀ (l : Len) (rd : Reg) (uimm : Uimm) (s : State), lenOf s.mxl = some l → s.mode = .M →
    ∃ t, exec (.csrrsi rd 0x3ac#12 uimm) s = .next t ∧
      CsrResult l rd true
        (if uimm = 0 then none else some (swRead l s.pmpcfg12 ||| BitVec.ofNat l.bits uimm.toNat)) s t

/-- csrrci in mode M: with an immediate of 0 there is no write (40_csr_access.md R65, R71; 30_encoding.md R52). -/
def Obligations.CsrrciReadsAndClears : Prop :=
  ∀ (l : Len) (rd : Reg) (uimm : Uimm) (s : State), lenOf s.mxl = some l → s.mode = .M →
    ∃ t, exec (.csrrci rd 0x3ac#12 uimm) s = .next t ∧
      CsrResult l rd true
        (if uimm = 0 then none else some (swRead l s.pmpcfg12 &&& ~~~(BitVec.ofNat l.bits uimm.toNat))) s t

/-- Below M every one of the six raises IllegalInstruction with its word, reads or writes no register of the machine,
and does not advance `pc` (60_exceptions.md R81, R86). -/
def Obligations.AccessBelowMRaises : Prop :=
  ∀ (i : Instr) (l : Len) (s : State), i.wellFormed = true → lenOf s.mxl = some l → s.mode = .belowM →
    ∃ t, exec i s = .next t ∧ t.trap = some (.illegalInstruction (encodeWord i)) ∧
      t.observed = .raised (.illegalInstruction (encodeWord i)) :: s.observed ∧
      t.pmpcfg12 = s.pmpcfg12 ∧ (∀ r : Reg, SameX s t r) ∧ t.pc = s.pc ∧ t.params = s.params ∧ t.mxl = s.mxl ∧
      t.mode = s.mode ∧ (∀ a : Nat, Memory.read t.mem a = Memory.read s.mem a) ∧ t.inputs = s.inputs

/-- With an MXL that gives no length, that is any but 0 and 1, every one of the six is refused, in either mode; and a
step of the hart with no exception pending is refused by the same name, whatever memory holds, so before any fetch
(00_scope.md R4; decision D3; the order of the checks is the model's, log entry 11). -/
def Obligations.AccessWithoutLengthIsRefused : Prop :=
  (∀ mxl : Nat, lenOf mxl = none ↔ mxl ≠ 0 ∧ mxl ≠ 1) ∧
  (∀ (i : Instr) (s : State), i.wellFormed = true → lenOf s.mxl = none →
    exec i s = .refused (.mxlWithoutLength s.mxl)) ∧
  (∀ s : State, hartNext s = true → s.trap = none → lenOf s.mxl = none →
    step s = .refused (.mxlWithoutLength s.mxl))

/-- An instruction whose CSR operand is another CSR is no instruction of this hardware and is refused by name
(30_encoding.md R50, R55, R57). -/
def Obligations.AccessToAnotherCsrIsRefused : Prop :=
  ∀ (i : Instr) (s : State), i.csr ≠ 0x3ac#12 → exec i s = .refused (.otherCsr i.csr)

/-- Whatever value is aimed at the register, an instruction in mode M completes: it raises nothing, `rd` receives the
old value where the CSR is read, and `pc` advances (60_exceptions.md R83). -/
def Obligations.RejectedWriteCompletes : Prop :=
  ∀ (i : Instr) (l : Len) (s : State), i.wellFormed = true → lenOf s.mxl = some l → s.mode = .M →
    ∃ t, exec i s = .next t ∧ t.trap = s.trap ∧ (i.rd ≠ 0 → readX l i.rd t = swRead l s.pmpcfg12) ∧
      t.pc = (pcOf l s + 4#l.bits).setWidth 64

/-- Of the register, csrrsi and csrrci change no field but pmp48cfg, and of that field neither the lock bit nor bits
6:5, in every legal register (30_encoding.md R52; 40_csr_access.md R70, R71). -/
def Obligations.SetClearImmediatesReachOnlyLowBits : Prop :=
  ∀ (i : Instr) (rd : Reg) (uimm : Uimm) (s t : State),
    i = .csrrsi rd 0x3ac#12 uimm ∨ i = .csrrci rd 0x3ac#12 uimm →
    LegalRegister s.params s.pmpcfg12 → exec i s = .next t →
    (∀ k : Fin 8, k ≠ 0 → cfg t.pmpcfg12 k = cfg s.pmpcfg12 k) ∧
      cfg t.pmpcfg12 0 &&& 0xe0#8 = cfg s.pmpcfg12 0 &&& 0xe0#8

/-- csrrwi in mode M clears every unlocked `RW-R` field inside the register other than pmp48cfg (30_encoding.md R52;
40_csr_access.md R69). -/
def Obligations.WriteImmediateClearsTheOtherFields : Prop :=
  ∀ (l : Len) (rd : Reg) (uimm : Uimm) (s : State) (k : Fin 8), lenOf s.mxl = some l → s.mode = .M →
    k ≠ 0 → 48 + k.val < s.params.numPmpEntries → 8 * k.val + 7 < l.bits → cfg s.pmpcfg12 k &&& 0x80#8 = 0#8 →
    ∃ t, exec (.csrrwi rd 0x3ac#12 uimm) s = .next t ∧ cfg t.pmpcfg12 k = 0#8

/-- The seven pseudo-instructions in mode M: csrr only reads and gives `rd` the register; csrw and csrwi attempt to
write `x[rs1]` or the immediate without a read; csrs and csrsi read and attempt to write the value read with the bits of
`x[rs1]` or of the immediate set, csrc and csrci with them cleared, into no destination register, and with `x0` or an
immediate of 0 they write nothing (30_encoding.md R56; 40_csr_access.md R66 to R71). -/
def Obligations.PseudoInstructionsReadOrWrite : Prop :=
  ∀ (l : Len) (r : Reg) (uimm : Uimm) (s : State), lenOf s.mxl = some l → s.mode = .M →
    (∃ t, exec (Pseudo.expand (.csrr r)) s = .next t ∧ CsrResult l r true none s t) ∧
    (∃ t, exec (Pseudo.expand (.csrw r)) s = .next t ∧ CsrResult l 0 false (some (readX l r s)) s t) ∧
    (∃ t, exec (Pseudo.expand (.csrwi uimm)) s = .next t ∧
      CsrResult l 0 false (some (BitVec.ofNat l.bits uimm.toNat)) s t) ∧
    (∃ t, exec (Pseudo.expand (.csrs r)) s = .next t ∧
      CsrResult l 0 true (if r = 0 then none else some (swRead l s.pmpcfg12 ||| readX l r s)) s t) ∧
    (∃ t, exec (Pseudo.expand (.csrc r)) s = .next t ∧
      CsrResult l 0 true (if r = 0 then none else some (swRead l s.pmpcfg12 &&& ~~~(readX l r s))) s t) ∧
    (∃ t, exec (Pseudo.expand (.csrsi uimm)) s = .next t ∧
      CsrResult l 0 true
        (if uimm = 0 then none else some (swRead l s.pmpcfg12 ||| BitVec.ofNat l.bits uimm.toNat)) s t) ∧
    (∃ t, exec (Pseudo.expand (.csrci uimm)) s = .next t ∧
      CsrResult l 0 true
        (if uimm = 0 then none else some (swRead l s.pmpcfg12 &&& ~~~(BitVec.ofNat l.bits uimm.toNat))) s t)

/-- `x0` reads as zero and discards writes (10_state.md R26; 40_csr_access.md R65, step 4). -/
def Obligations.ZeroRegisterIsHardWired : Prop :=
  ∀ (l : Len) (v : BitVec l.bits) (s : State), readX l 0 s = 0#l.bits ∧ writeX l 0 v s = s

/-! ### Inputs and the trap mechanism -/

/-- A change of MXL changes the length the next operation sees, and not the register: the fields hidden at length 32
show again at length 64 (70_reset_and_hazards.md R101, which speaks of the register alone). The rest is the model's
choice: `pc` keeps its stored value, and the general registers hold what the input says where MXL changes and stay
where its value is the present one (DESIGN CHOICE, log entry 6, that of `pc` unsafe); memory (log entry 9), the pending
exception (log entry 3), the observations (log entry 8), the other inputs and the mode (log entry 4) stay. -/
def Obligations.MxlChangeKeepsTheRegister : Prop :=
  ∀ (s : State) (mxl : Nat) (x : Vector Word64 31) (rest : List Input), s.inputs = .mxlBecomes mxl x :: rest →
    ∃ t, step s = .next t ∧ t.mxl = mxl ∧ t.pmpcfg12 = s.pmpcfg12 ∧ swRead .len64 t.pmpcfg12 = s.pmpcfg12 ∧
      t.mode = s.mode ∧ t.pc = s.pc ∧ t.mem = s.mem ∧ t.trap = s.trap ∧ t.inputs = rest ∧
      t.observed = s.observed ∧ (mxl = s.mxl → t.x = s.x) ∧ (mxl ≠ s.mxl → t.x = x)

/-- The mode is an input: it becomes what the input says and nothing else changes (00_scope.md R6; 60_exceptions.md
R87). -/
def Obligations.ModeIsAnInput : Prop :=
  ∀ (s : State) (mode : Mode) (rest : List Input), s.inputs = .modeBecomes mode :: rest →
    step s = .next { s with mode := mode, inputs := rest }

/-- While a raised exception awaits the trap mechanism the hart's next instruction is refused by name, and when the
mechanism has taken it the hart goes on in the mode and at the pc it says, with the register as it was
(60_exceptions.md R86; 40_csr_access.md R76; the pending outcome is the model's form of `raise`, log entry 3). With no
exception pending the trap mechanism's input does nothing but be gone: the model's choice (DESIGN CHOICE, log entry
3). -/
def Obligations.TrapMechanismTakesControl : Prop :=
  (∀ (s : State) (e : Exception), s.trap = some e → hartNext s = true →
    step s = .refused (.controlWithTrapMechanism e)) ∧
  (∀ (s : State) (e : Exception) (mode : Mode) (pc : Word64) (rest : List Input),
    s.trap = some e → s.inputs = .trapTaken mode pc :: rest →
    step s = .next { s with trap := none, mode := mode, pc := pc, inputs := rest }) ∧
  (∀ (s : State) (mode : Mode) (pc : Word64) (rest : List Input),
    s.trap = none → s.inputs = .trapTaken mode pc :: rest → step s = .next { s with inputs := rest })

/-! ### What the fields mean for accesses -/

/-- `decode_entry` on all 256 bytes: `L` is bit 7, `A` the mode that bits 4:3 encode (0 OFF, 1 TOR, 2 NA4, 3 NAPOT),
`X`, `W` and `R` bits 2, 1 and 0; bits 6:5 carry no meaning; and entry `48 + k` is the decode of field `k` of the
register (20_memory.md R37; 10_state.md R19). -/
def Obligations.EntryIsTheDecodeOfItsField : Prop :=
  (∀ c : Byte,
    ((decodeEntry c).L = true ↔ c &&& 0x80#8 ≠ 0#8) ∧ (decodeEntry c).A = addressModeOf (c.extractLsb' 3 2) ∧
    ((decodeEntry c).A = .off ↔ c &&& 0x18#8 = 0x00#8) ∧ ((decodeEntry c).A = .tor ↔ c &&& 0x18#8 = 0x08#8) ∧
    ((decodeEntry c).A = .na4 ↔ c &&& 0x18#8 = 0x10#8) ∧ ((decodeEntry c).A = .napot ↔ c &&& 0x18#8 = 0x18#8) ∧
    ((decodeEntry c).X = true ↔ c &&& 0x04#8 ≠ 0#8) ∧ ((decodeEntry c).W = true ↔ c &&& 0x02#8 ≠ 0#8) ∧
    ((decodeEntry c).R = true ↔ c &&& 0x01#8 ≠ 0#8) ∧ decodeEntry (c &&& 0x9f#8) = decodeEntry c) ∧
  ∀ (s : State) (k : Fin 8), entryOf s k = decodeEntry (s.pmpcfg12.extractLsb' (8 * k.val) 8)

/-- The regions as far as the spec gives them: an OFF region is null, an NA4 region is four bytes long and aligned to
four bytes, so its addresses are exactly those that differ from its lowest one in bits 1:0 alone (20_memory.md R39).
That a region is a lowest address and a number of bytes, and that any such pair passes for a TOR or a NAPOT region, is
the model's choice (DESIGN CHOICE, log entry 12): the spec gives those neither length nor alignment (20_memory.md R39,
R44), and the model asks none. -/
def Obligations.RegionsHaveTheirLengthAndAlignment : Prop :=
  ∀ base bytes : Nat,
    (isRegionOf .off base bytes = true ↔ bytes = 0) ∧
    (isRegionOf .na4 base bytes = true ↔ bytes = 4 ∧ base % 4 = 0) ∧
    (isRegionOf .na4 base bytes = true → ∀ a : Nat, base ≤ a ∧ a < base + bytes ↔ a / 4 = base / 4) ∧
    isRegionOf .tor base bytes = true ∧ isRegionOf .napot base bytes = true

/-- The verdict of an enabled entry that applies to an access and whose permissions are not the reserved combination,
by its permission bits, at every kind of access: the table of the spec, with the access fault of the access's kind
where it denies (20_memory.md R38 to R43; 60_exceptions.md R80). -/
def Obligations.PermissionTable : Prop :=
  ∀ (e : Entry) (mode : Mode) (address : Word64), e.A ≠ .off → (mode = .belowM ∨ e.L = true) →
    ¬(e.R = false ∧ e.W = true) →
    e.verdict mode .fetch address = (if e.X = true then .allowed else .denied (.instructionAccessFault address)) ∧
    e.verdict mode .load address = (if e.R = true then .allowed else .denied (.loadAccessFault address)) ∧
    e.verdict mode .store address = (if e.W = true then .allowed else .denied (.storeAmoAccessFault address)) ∧
    e.verdict mode .amo address = (if e.W = true then .allowed else .denied (.storeAmoAccessFault address))

/-- Where the table does not reach: a disabled entry matches nothing; an enabled unlocked entry is not applied in mode M;
an enabled entry that applies and holds the reserved combination is refused (20_memory.md R38, R39, R43; decision D22).
That a disabled entry, or an unlocked one in mode M, is not refused when it holds the reserved combination is the
model's order of the tests (DESIGN CHOICE, log entry 12); no reachable register holds that combination. -/
def Obligations.EntriesOutsideThePermissionTable : Prop :=
  ∀ (e : Entry) (mode : Mode) (kind : AccessKind) (address : Word64),
    (e.A = .off → e.verdict mode kind address = .noMatch) ∧
    (e.A ≠ .off → e.L = false → e.verdict .M kind address = .notApplied) ∧
    (e.A ≠ .off → (mode = .belowM ∨ e.L = true) → e.R = false → e.W = true →
      e.verdict mode kind address = .refusedReservedPermissions)

/-- A field of type `RO` decodes to a disabled entry in every legal state, whatever the length is (20_memory.md R45). -/
def Obligations.ReadOnlyEntriesAreDisabled : Prop :=
  ∀ (s : State) (k : Fin 8) (mode : Mode) (kind : AccessKind) (address : Word64),
    LegalRegister s.params s.pmpcfg12 → s.params.numPmpEntries ≤ 48 + k.val →
    (entryOf s k).verdict mode kind address = .noMatch

/-- The cause codes, and what is recorded: the address of an access fault, and for an illegal instruction its word or
zero (60_exceptions.md R80, R81; 93_implementation_defined.md U10, log entry 2). -/
def Obligations.ExceptionsHaveTheirCauses : Prop :=
  ∀ (insn : InsnWord) (address : Word64),
    causeCode (.illegalInstruction insn) = 2 ∧ causeCode (.instructionAccessFault address) = 1 ∧
    causeCode (.loadAccessFault address) = 5 ∧ causeCode (.storeAmoAccessFault address) = 7 ∧
    (recordedValue (.illegalInstruction insn) = insn.setWidth 64 ∨
      recordedValue (.illegalInstruction insn) = 0#64) ∧
    recordedValue (.instructionAccessFault address) = address ∧
    recordedValue (.loadAccessFault address) = address ∧ recordedValue (.storeAmoAccessFault address) = address
end

