-- ==== Sys2Proof/Laws/Encoding.lean ====
section
/-!
SUPPORT. What the encoder's format and the byte order are made of: the fields of an encoded word, what the mask of the
decoder leaves of it, and that the bytes of a word are the word.
-/

namespace Sys2Proof

section
variable (csr : CsrAddress) (src : BitVec 5) (funct3 : BitVec 3) (rd : Reg)

/-- The CSR-address field of an encoded word. -/
@[simp] theorem csrField_encodeFields : csrField (encodeFields csr src funct3 rd) = csr := by
  apply BitVec.eq_of_getLsbD_eq
  intro i hi
  simp only [csrField, encodeFields, BitVec.getLsbD_extractLsb', BitVec.getLsbD_append]
  interval_cases i <;> simp

/-- Bits 19:15 of an encoded word. -/
@[simp] theorem uimmField_encodeFields : uimmField (encodeFields csr src funct3 rd) = src := by
  apply BitVec.eq_of_getLsbD_eq
  intro i hi
  simp only [uimmField, encodeFields, BitVec.getLsbD_extractLsb', BitVec.getLsbD_append]
  interval_cases i <;> simp

/-- The source register number of an encoded word. -/
@[simp] theorem rs1Field_encodeFields : rs1Field (encodeFields csr src funct3 rd) = src.toFin := by
  have h := uimmField_encodeFields csr src funct3 rd
  unfold uimmField at h
  rw [rs1Field, h]

/-- The destination register number of an encoded word. -/
@[simp] theorem rdField_encodeFields : rdField (encodeFields csr src funct3 rd) = rd := by
  have h : (encodeFields csr src funct3 rd).extractLsb' 7 5 = BitVec.ofFin rd := by
    apply BitVec.eq_of_getLsbD_eq
    intro i hi
    simp only [encodeFields, BitVec.getLsbD_extractLsb', BitVec.getLsbD_append]
    interval_cases i <;> simp
  rw [rdField, h]

/-- The mask of the decoder clears the two operand fields and nothing else. -/
theorem encodeFields_and_matchMask :
    encodeFields csr src funct3 rd &&& matchMask = encodeFields csr 0#5 funct3 0 := by
  apply BitVec.eq_of_getLsbD_eq
  intro i hi
  simp only [encodeFields, matchMask, BitVec.getLsbD_and, BitVec.getLsbD_append]
  interval_cases i <;> simp

end

/-- The word made of a word's bytes is the word. -/
theorem wordOfBytes_of_word (w : InsnWord) :
    wordOfBytes (w.extractLsb' 0 8) (w.extractLsb' 8 8) (w.extractLsb' 16 8) (w.extractLsb' 24 8) = w := by
  apply BitVec.eq_of_getLsbD_eq
  intro i hi
  simp only [wordOfBytes, BitVec.getLsbD_extractLsb', BitVec.getLsbD_append]
  interval_cases i <;> simp

/-- Decoding the bytes of a word decodes the word. -/
theorem decodeBytes_bytesOfWord (w : InsnWord) (rest : List Byte) :
    decodeBytes (bytesOfWord w ++ rest) =
      match decodeWord w with
      | .ok i => .ok (i, rest)
      | .error e => .error e := by
  cases h : decodeWord w <;>
    simp only [bytesOfWord, List.cons_append, List.nil_append, decodeBytes, wordOfBytes_of_word, h]

end Sys2Proof
end

