-- ==== Sys2Proof/Laws/State.lean ====
section
/-!
SUPPORT. One lemma for each field of the state under each update of it, true by `rfl`, so that no later proof unfolds a
record update.
-/

namespace Sys2Proof.Machine

@[simp] theorem writeX_params (l : Len) (r : Reg) (v : BitVec l.bits) (s : State) :
    (writeX l r v s).params = s.params := rfl
@[simp] theorem writeX_pmpcfg12 (l : Len) (r : Reg) (v : BitVec l.bits) (s : State) :
    (writeX l r v s).pmpcfg12 = s.pmpcfg12 := rfl
@[simp] theorem writeX_mxl (l : Len) (r : Reg) (v : BitVec l.bits) (s : State) : (writeX l r v s).mxl = s.mxl := rfl
@[simp] theorem writeX_mode (l : Len) (r : Reg) (v : BitVec l.bits) (s : State) : (writeX l r v s).mode = s.mode := rfl
@[simp] theorem writeX_pc (l : Len) (r : Reg) (v : BitVec l.bits) (s : State) : (writeX l r v s).pc = s.pc := rfl
@[simp] theorem writeX_mem (l : Len) (r : Reg) (v : BitVec l.bits) (s : State) : (writeX l r v s).mem = s.mem := rfl
@[simp] theorem writeX_trap (l : Len) (r : Reg) (v : BitVec l.bits) (s : State) : (writeX l r v s).trap = s.trap := rfl
@[simp] theorem writeX_inputs (l : Len) (r : Reg) (v : BitVec l.bits) (s : State) :
    (writeX l r v s).inputs = s.inputs := rfl
@[simp] theorem writeX_observed (l : Len) (r : Reg) (v : BitVec l.bits) (s : State) :
    (writeX l r v s).observed = s.observed := rfl

@[simp] theorem advancePc_params (l : Len) (s : State) : (advancePc l s).params = s.params := rfl
@[simp] theorem advancePc_pmpcfg12 (l : Len) (s : State) : (advancePc l s).pmpcfg12 = s.pmpcfg12 := rfl
@[simp] theorem advancePc_mxl (l : Len) (s : State) : (advancePc l s).mxl = s.mxl := rfl
@[simp] theorem advancePc_mode (l : Len) (s : State) : (advancePc l s).mode = s.mode := rfl
@[simp] theorem advancePc_x (l : Len) (s : State) : (advancePc l s).x = s.x := rfl
@[simp] theorem advancePc_pc (l : Len) (s : State) : (advancePc l s).pc = (pcOf l s + 4#l.bits).setWidth 64 := rfl
@[simp] theorem advancePc_mem (l : Len) (s : State) : (advancePc l s).mem = s.mem := rfl
@[simp] theorem advancePc_trap (l : Len) (s : State) : (advancePc l s).trap = s.trap := rfl
@[simp] theorem advancePc_inputs (l : Len) (s : State) : (advancePc l s).inputs = s.inputs := rfl
@[simp] theorem advancePc_observed (l : Len) (s : State) : (advancePc l s).observed = s.observed := rfl

@[simp] theorem observe_params (o : Observation) (s : State) : (observe o s).params = s.params := rfl
@[simp] theorem observe_pmpcfg12 (o : Observation) (s : State) : (observe o s).pmpcfg12 = s.pmpcfg12 := rfl
@[simp] theorem observe_mxl (o : Observation) (s : State) : (observe o s).mxl = s.mxl := rfl
@[simp] theorem observe_mode (o : Observation) (s : State) : (observe o s).mode = s.mode := rfl
@[simp] theorem observe_x (o : Observation) (s : State) : (observe o s).x = s.x := rfl
@[simp] theorem observe_pc (o : Observation) (s : State) : (observe o s).pc = s.pc := rfl
@[simp] theorem observe_mem (o : Observation) (s : State) : (observe o s).mem = s.mem := rfl
@[simp] theorem observe_trap (o : Observation) (s : State) : (observe o s).trap = s.trap := rfl
@[simp] theorem observe_inputs (o : Observation) (s : State) : (observe o s).inputs = s.inputs := rfl
@[simp] theorem observe_observed (o : Observation) (s : State) : (observe o s).observed = o :: s.observed := rfl

@[simp] theorem writeCsr_params (l : Len) (v : BitVec l.bits) (s : State) : (writeCsr l v s).params = s.params := rfl
@[simp] theorem writeCsr_pmpcfg12 (l : Len) (v : BitVec l.bits) (s : State) :
    (writeCsr l v s).pmpcfg12 = swWrite s.params l v s.pmpcfg12 := rfl
@[simp] theorem writeCsr_mxl (l : Len) (v : BitVec l.bits) (s : State) : (writeCsr l v s).mxl = s.mxl := rfl
@[simp] theorem writeCsr_mode (l : Len) (v : BitVec l.bits) (s : State) : (writeCsr l v s).mode = s.mode := rfl
@[simp] theorem writeCsr_x (l : Len) (v : BitVec l.bits) (s : State) : (writeCsr l v s).x = s.x := rfl
@[simp] theorem writeCsr_pc (l : Len) (v : BitVec l.bits) (s : State) : (writeCsr l v s).pc = s.pc := rfl
@[simp] theorem writeCsr_mem (l : Len) (v : BitVec l.bits) (s : State) : (writeCsr l v s).mem = s.mem := rfl
@[simp] theorem writeCsr_trap (l : Len) (v : BitVec l.bits) (s : State) : (writeCsr l v s).trap = s.trap := rfl
@[simp] theorem writeCsr_inputs (l : Len) (v : BitVec l.bits) (s : State) : (writeCsr l v s).inputs = s.inputs := rfl
@[simp] theorem writeCsr_observed (l : Len) (v : BitVec l.bits) (s : State) :
    (writeCsr l v s).observed = .write l v :: s.observed := rfl

@[simp] theorem raise_params (e : Exception) (s : State) : (raise e s).params = s.params := rfl
@[simp] theorem raise_pmpcfg12 (e : Exception) (s : State) : (raise e s).pmpcfg12 = s.pmpcfg12 := rfl
@[simp] theorem raise_mxl (e : Exception) (s : State) : (raise e s).mxl = s.mxl := rfl
@[simp] theorem raise_mode (e : Exception) (s : State) : (raise e s).mode = s.mode := rfl
@[simp] theorem raise_x (e : Exception) (s : State) : (raise e s).x = s.x := rfl
@[simp] theorem raise_pc (e : Exception) (s : State) : (raise e s).pc = s.pc := rfl
@[simp] theorem raise_mem (e : Exception) (s : State) : (raise e s).mem = s.mem := rfl
@[simp] theorem raise_trap (e : Exception) (s : State) : (raise e s).trap = some e := rfl
@[simp] theorem raise_inputs (e : Exception) (s : State) : (raise e s).inputs = s.inputs := rfl
@[simp] theorem raise_observed (e : Exception) (s : State) : (raise e s).observed = .raised e :: s.observed := rfl

@[simp] theorem applyReset_params (n : Launch) (s : State) : (applyReset n s).params = s.params := rfl
@[simp] theorem applyReset_pmpcfg12 (n : Launch) (s : State) : (applyReset n s).pmpcfg12 = resetValue := rfl
@[simp] theorem applyReset_mxl (n : Launch) (s : State) : (applyReset n s).mxl = n.mxl := rfl
@[simp] theorem applyReset_mode (n : Launch) (s : State) : (applyReset n s).mode = n.mode := rfl
@[simp] theorem applyReset_x (n : Launch) (s : State) : (applyReset n s).x = n.x := rfl
@[simp] theorem applyReset_pc (n : Launch) (s : State) : (applyReset n s).pc = n.pc := rfl
@[simp] theorem applyReset_mem (n : Launch) (s : State) : (applyReset n s).mem = s.mem := rfl
@[simp] theorem applyReset_trap (n : Launch) (s : State) : (applyReset n s).trap = none := rfl
@[simp] theorem applyReset_inputs (n : Launch) (s : State) : (applyReset n s).inputs = s.inputs := rfl
@[simp] theorem applyReset_observed (n : Launch) (s : State) : (applyReset n s).observed = s.observed := rfl

@[simp] theorem applyMxl_params (m : Nat) (x : Vector Word64 31) (s : State) : (applyMxl m x s).params = s.params := rfl
@[simp] theorem applyMxl_pmpcfg12 (m : Nat) (x : Vector Word64 31) (s : State) :
    (applyMxl m x s).pmpcfg12 = s.pmpcfg12 := rfl
@[simp] theorem applyMxl_mxl (m : Nat) (x : Vector Word64 31) (s : State) : (applyMxl m x s).mxl = m := rfl
@[simp] theorem applyMxl_mode (m : Nat) (x : Vector Word64 31) (s : State) : (applyMxl m x s).mode = s.mode := rfl
@[simp] theorem applyMxl_x (m : Nat) (x : Vector Word64 31) (s : State) :
    (applyMxl m x s).x = if m = s.mxl then s.x else x := rfl
@[simp] theorem applyMxl_pc (m : Nat) (x : Vector Word64 31) (s : State) : (applyMxl m x s).pc = s.pc := rfl
@[simp] theorem applyMxl_mem (m : Nat) (x : Vector Word64 31) (s : State) : (applyMxl m x s).mem = s.mem := rfl
@[simp] theorem applyMxl_trap (m : Nat) (x : Vector Word64 31) (s : State) : (applyMxl m x s).trap = s.trap := rfl
@[simp] theorem applyMxl_inputs (m : Nat) (x : Vector Word64 31) (s : State) : (applyMxl m x s).inputs = s.inputs := rfl
@[simp] theorem applyMxl_observed (m : Nat) (x : Vector Word64 31) (s : State) :
    (applyMxl m x s).observed = s.observed := rfl

@[simp] theorem storeWordAtPc_params (l : Len) (w : InsnWord) (s : State) :
    (storeWordAtPc l w s).params = s.params := rfl
@[simp] theorem storeWordAtPc_pmpcfg12 (l : Len) (w : InsnWord) (s : State) :
    (storeWordAtPc l w s).pmpcfg12 = s.pmpcfg12 := rfl
@[simp] theorem storeWordAtPc_mxl (l : Len) (w : InsnWord) (s : State) : (storeWordAtPc l w s).mxl = s.mxl := rfl
@[simp] theorem storeWordAtPc_mode (l : Len) (w : InsnWord) (s : State) : (storeWordAtPc l w s).mode = s.mode := rfl
@[simp] theorem storeWordAtPc_x (l : Len) (w : InsnWord) (s : State) : (storeWordAtPc l w s).x = s.x := rfl
@[simp] theorem storeWordAtPc_pc (l : Len) (w : InsnWord) (s : State) : (storeWordAtPc l w s).pc = s.pc := rfl
@[simp] theorem storeWordAtPc_trap (l : Len) (w : InsnWord) (s : State) : (storeWordAtPc l w s).trap = s.trap := rfl
@[simp] theorem storeWordAtPc_inputs (l : Len) (w : InsnWord) (s : State) :
    (storeWordAtPc l w s).inputs = s.inputs := rfl
@[simp] theorem storeWordAtPc_observed (l : Len) (w : InsnWord) (s : State) :
    (storeWordAtPc l w s).observed = s.observed := rfl

@[simp] theorem hartRunsNext_params (s : State) : (hartRunsNext s).params = s.params := rfl
@[simp] theorem hartRunsNext_pmpcfg12 (s : State) : (hartRunsNext s).pmpcfg12 = s.pmpcfg12 := rfl
@[simp] theorem hartRunsNext_mxl (s : State) : (hartRunsNext s).mxl = s.mxl := rfl
@[simp] theorem hartRunsNext_mode (s : State) : (hartRunsNext s).mode = s.mode := rfl
@[simp] theorem hartRunsNext_x (s : State) : (hartRunsNext s).x = s.x := rfl
@[simp] theorem hartRunsNext_pc (s : State) : (hartRunsNext s).pc = s.pc := rfl
@[simp] theorem hartRunsNext_mem (s : State) : (hartRunsNext s).mem = s.mem := rfl
@[simp] theorem hartRunsNext_trap (s : State) : (hartRunsNext s).trap = none := rfl
@[simp] theorem hartRunsNext_observed (s : State) : (hartRunsNext s).observed = s.observed := rfl

end Sys2Proof.Machine
end

