-- ==== Sys2Proof/Laws/Memory.lean ====
section
/-!
SUPPORT. Memory: a read after a write, and that every operation on memory keeps the canonical form.
-/

namespace Sys2Proof.Machine

/-- A read after a write of the same byte gives the value written, and of any other byte what it gave before. -/
theorem Memory.read_write (m : Memory) (a b : Nat) (v : Byte) :
    Memory.read (Memory.write m a v) b = if b = a then some v else Memory.read m b := by
  induction m with
  | nil => simp [Memory.write, Memory.read]
  | cons c rest ih =>
    obtain ⟨d, w⟩ := c
    unfold Memory.write
    split
    · simp [Memory.read]
    · split
      · rename_i h
        subst h
        by_cases hb : b = a <;> simp [Memory.read, hb]
      · rename_i h
        simp only [Memory.read, ih]
        split <;> split <;> simp_all

/-- Every address of a memory whose form holds lies above the first. -/
theorem Memory.wf_cons {a : Nat} {v : Byte} {m : Memory} :
    Memory.wf ((a, v) :: m) = true ↔ (∀ c ∈ m.head?, a < c.1) ∧ Memory.wf m = true := by
  cases m with
  | nil => simp [Memory.wf]
  | cons c rest => simp [Memory.wf]

/-- The first address after a write is the written one or the old first. -/
theorem Memory.head_write (m : Memory) (a : Nat) (v : Byte) :
    ∀ c ∈ (Memory.write m a v).head?, c.1 = a ∨ ∃ d ∈ m.head?, c.1 = d.1 := by
  cases m with
  | nil => simp [Memory.write]
  | cons d rest =>
    obtain ⟨b, w⟩ := d
    unfold Memory.write
    split
    · simp
    · split <;> simp

/-- A write keeps the canonical form. -/
theorem Memory.wf_write {m : Memory} (h : Memory.wf m = true) (a : Nat) (v : Byte) :
    Memory.wf (Memory.write m a v) = true := by
  induction m with
  | nil => simp [Memory.write, Memory.wf]
  | cons c rest ih =>
    obtain ⟨b, w⟩ := c
    have hb := Memory.wf_cons.1 h
    unfold Memory.write
    split
    · exact Memory.wf_cons.2 ⟨by simpa using ‹a < b›, h⟩
    · split
      · rename_i hab
        exact Memory.wf_cons.2 ⟨by simpa [hab] using hb.1, hb.2⟩
      · refine Memory.wf_cons.2 ⟨?_, ih hb.2⟩
        intro c hc
        rcases Memory.head_write rest a v c hc with h1 | ⟨d, hd, h1⟩
        · omega
        · have := hb.1 d hd
          omega

/-- Memory after reset has the canonical form. -/
theorem reset_memory_wf : Memory.wf State.reset.mem = true := rfl

/-- Placing an instruction word keeps the canonical form. -/
theorem withFetchWord_memory_wf {s : State} (h : Memory.wf s.mem = true) (nbits w : Nat) :
    Memory.wf (s.withFetchWord nbits w).mem = true := by
  unfold State.withFetchWord
  split
  · exact h
  · exact Memory.wf_write (Memory.wf_write (Memory.wf_write (Memory.wf_write h _ _) _ _) _ _) _ _

end Sys2Proof.Machine
end

