-- ==== Sys2Proof/Laws/PerInstr.lean ====
section
/-!
SUPPORT. Families of statements about every instruction, one lemma for each constructor of Instr.
-/

namespace Sys2Proof.Laws

/-- The match value of an instruction's row of spec/opcode_table.json. -/
def matchValue : Instr → InsnWord
  | .csrrw _ _ _ => 0x3ac01073#32
  | .csrrs _ _ _ => 0x3ac02073#32
  | .csrrc _ _ _ => 0x3ac03073#32
  | .csrrwi _ _ _ => 0x3ac05073#32
  | .csrrsi _ _ _ => 0x3ac06073#32
  | .csrrci _ _ _ => 0x3ac07073#32

namespace EncodesToMatch

/-- The word of a well-formed instruction, under the mask of its row, is the match value of its row
(30_encoding.md R53). -/
def Statement (i : Instr) : Prop := i.wellFormed = true → encodeWord i &&& matchMask = matchValue i

theorem csrrw (rd : Reg) (csr : CsrAddress) (rs1 : Reg) : Statement (.csrrw rd csr rs1) := by
  intro h
  rw [eq_of_beq h, encodeWord, encodeFields_and_matchMask]
  rfl

theorem csrrs (rd : Reg) (csr : CsrAddress) (rs1 : Reg) : Statement (.csrrs rd csr rs1) := by
  intro h
  rw [eq_of_beq h, encodeWord, encodeFields_and_matchMask]
  rfl

theorem csrrc (rd : Reg) (csr : CsrAddress) (rs1 : Reg) : Statement (.csrrc rd csr rs1) := by
  intro h
  rw [eq_of_beq h, encodeWord, encodeFields_and_matchMask]
  rfl

theorem csrrwi (rd : Reg) (csr : CsrAddress) (uimm : Uimm) : Statement (.csrrwi rd csr uimm) := by
  intro h
  rw [eq_of_beq h, encodeWord, encodeFields_and_matchMask]
  rfl

theorem csrrsi (rd : Reg) (csr : CsrAddress) (uimm : Uimm) : Statement (.csrrsi rd csr uimm) := by
  intro h
  rw [eq_of_beq h, encodeWord, encodeFields_and_matchMask]
  rfl

theorem csrrci (rd : Reg) (csr : CsrAddress) (uimm : Uimm) : Statement (.csrrci rd csr uimm) := by
  intro h
  rw [eq_of_beq h, encodeWord, encodeFields_and_matchMask]
  rfl

end EncodesToMatch

end Sys2Proof.Laws
end

