-- ==== Sys2Proof/Laws/Register.lean ====
section
/-!
SUPPORT. What the shared operations do, said once: the fields of the register, the read and write functions, the
general registers, and the read-modify-write that every instruction is made of.
-/

namespace Sys2Proof.Machine

/-! ### Fields -/

/-- A field of a register made of fields is that field. -/
@[simp] theorem cfg_ofFields (f : Fin 8 → Byte) (k : Fin 8) : cfg (ofFields f) k = f k := by
  fin_cases k <;> (unfold cfg ofFields; ext i hi; simp; try grind)

/-- A bit of a field is a bit of the register. -/
theorem cfg_getLsbD (S : Word64) (k : Fin 8) (i : Nat) :
    (cfg S k).getLsbD i = (decide (i < 8) && S.getLsbD (8 * k.val + i)) := by
  simp [cfg]

/-- Two registers with the same fields are the same register. -/
theorem register_ext {S T : Word64} (h : ∀ k : Fin 8, cfg S k = cfg T k) : S = T := by
  apply BitVec.eq_of_getLsbD_eq
  intro i hi
  have hk := congrArg (fun c => c.getLsbD (i % 8)) (h ⟨i / 8, by omega⟩)
  simpa only [cfg_getLsbD, Nat.mod_lt i (show 0 < 8 by decide), decide_true, Bool.true_and, Nat.div_add_mod] using hk

@[simp] theorem cfg_zero (k : Fin 8) : cfg 0#64 k = 0#8 := by simp [cfg]

@[simp] theorem cfg_resetValue (k : Fin 8) : cfg resetValue k = 0#8 := cfg_zero k

/-- A field after a software write is what the write function makes of it. -/
@[simp] theorem cfg_swWrite (p : Params) (l : Len) (v : BitVec l.bits) (S : Word64) (k : Fin 8) :
    cfg (swWrite p l v S) k = writeField p l k (cfg S k) (cfg (v.setWidth 64) k) := by
  simp [swWrite]

/-! ### The write function -/

/-- A field keeps its value or takes the written byte without bits 6:5, and then every test was passed. -/
theorem writeField_cases (p : Params) (l : Len) (k : Fin 8) (old new : Byte) :
    writeField p l k old new = old ∨
      (writeField p l k old new = new &&& 0x9f#8 ∧ isReadOnly p k = false ∧ isBeyond l k = false ∧
        lockBit old = false ∧ reservedPermissions new = false ∧ invalidNa4 p new = false) := by
  unfold writeField
  cases h0 : isReadOnly p k
  · cases h1 : isBeyond l k
    · cases h2 : lockBit old
      · cases h3 : reservedPermissions new
        · cases h4 : invalidNa4 p new <;> simp
        · simp
      · simp
    · simp
  · simp

/-- A locked field keeps its value. -/
theorem writeField_locked {p : Params} {l : Len} {k : Fin 8} {old : Byte} (new : Byte) (h : lockBit old = true) :
    writeField p l k old new = old := by
  rcases writeField_cases p l k old new with h' | ⟨_, _, _, h', _⟩
  · exact h'
  · simp [h] at h'

/-- Clearing bits 6:5 changes no bit the tests read. -/
theorem mask_keeps_tests (p : Params) (c : Byte) :
    reservedPermissions (c &&& 0x9f#8) = reservedPermissions c ∧ invalidNa4 p (c &&& 0x9f#8) = invalidNa4 p c ∧
      (c &&& 0x9f#8).extractLsb' 5 2 = 0#2 := by
  refine ⟨by simp [reservedPermissions], ?_, ?_⟩
  · have h : addressModeBits (c &&& 0x9f#8) = addressModeBits c := by
      ext i hi
      have : i = 0 ∨ i = 1 := by omega
      rcases this with rfl | rfl <;> simp [addressModeBits]
    simp [invalidNa4, h]
  · ext i hi
    have : i = 0 ∨ i = 1 := by omega
    rcases this with rfl | rfl <;> simp

/-! ### General registers -/

/-- A read of a register after a write of a register, at any two lengths. -/
theorem readX_writeX (m l : Len) (q r : Reg) (v : BitVec l.bits) (s : State) :
    readX m q (writeX l r v s) =
      if q = r ∧ r ≠ 0 then (v.setWidth 64).setWidth m.bits else readX m q s := by
  unfold readX writeX
  by_cases hq : q.val = 0
  · have : ¬(q = r ∧ r ≠ 0) := by
      rintro ⟨rfl, h⟩
      exact h (Fin.ext hq)
    simp [hq, this]
  · by_cases hr : r.val = 0
    · have h0 : r = 0 := Fin.ext hr
      simp [hq, h0]
    · have hr0 : r ≠ 0 := fun h => hr (by simp [h])
      by_cases hqr : q = r
      · subst hqr
        simp [hq, hr0]
      · have hne : r.val - 1 ≠ q.val - 1 := by
          have : q.val ≠ r.val := fun h => hqr (Fin.ext h)
          omega
        simp [hq, hr, hqr, hne]

/-- A value that fits the length survives storage. -/
@[simp] theorem setWidth_through_storage (l : Len) (v : BitVec l.bits) : (v.setWidth 64).setWidth l.bits = v := by
  cases l <;> exact BitVec.setWidth_setWidth_of_le _ (by decide)

/-- Two states with the same storage read the same. -/
theorem readX_congr {s t : State} (h : t.x = s.x) (l : Len) (r : Reg) : readX l r t = readX l r s := by
  unfold readX
  simp [h]

/-! ### The read-modify-write of the six instructions -/

section
variable (l : Len) (rd : Reg) (reads : Bool) (written : Option (BitVec l.bits → BitVec l.bits)) (s : State)

/-- The register after it: the software write of the value made from the value read, if it writes. -/
theorem readModifyWrite_pmpcfg12 :
    (readModifyWrite l rd reads written s).pmpcfg12 =
      match written with
      | none => s.pmpcfg12
      | some f => swWrite s.params l (f (swRead l s.pmpcfg12)) s.pmpcfg12 := by
  cases reads <;> cases written <;> simp [readModifyWrite]

/-- Its accesses, last first. -/
theorem readModifyWrite_observed :
    (readModifyWrite l rd reads written s).observed =
      (match written with
        | none => []
        | some f => [Observation.write l (f (swRead l s.pmpcfg12))]) ++
      (if reads then [Observation.read l (swRead l s.pmpcfg12)] else []) ++ s.observed := by
  cases reads <;> cases written <;> simp [readModifyWrite]

/-- The general registers after it: `rd` takes the value read, if it reads and `rd` is not `x0`. -/
theorem readModifyWrite_readX (m : Len) (q : Reg) :
    readX m q (readModifyWrite l rd reads written s) =
      if reads = true ∧ q = rd ∧ rd ≠ 0 then ((swRead l s.pmpcfg12).setWidth 64).setWidth m.bits
      else readX m q s := by
  have key : ∀ t : State, t.x = s.x → readX m q t = readX m q s := fun t h => readX_congr h m q
  cases reads <;> cases written <;>
    simp [readModifyWrite, readX_congr (advancePc_x _ _), readX_writeX, readX_congr (observe_x _ _),
      readX_congr (writeCsr_x _ _ _)]

/-- The program counter after it. -/
theorem readModifyWrite_pc : (readModifyWrite l rd reads written s).pc = (pcOf l s + 4#l.bits).setWidth 64 := by
  cases reads <;> cases written <;> simp [readModifyWrite, pcOf]

/-- What it never changes. -/
theorem readModifyWrite_surroundings : SameSurroundings s (readModifyWrite l rd reads written s) := by
  cases reads <;> cases written <;> simp [readModifyWrite, SameSurroundings]

end

/-! ### The common part of the instructions -/

/-- An access in mode M with a length has the instruction's effect. -/
theorem access_in_M {i : Instr} {effect : Len → State → State} {s : State} {l : Len}
    (hc : i.csr = Config.pmpcfg12Address) (hl : lenOf s.mxl = some l) (hm : s.mode = .M) :
    access i effect s = .next (effect l s) := by
  simp [access, hc, hl, hm]

/-- An access below M with a length raises the illegal-instruction exception. -/
theorem access_below_M {i : Instr} {effect : Len → State → State} {s : State} {l : Len}
    (hc : i.csr = Config.pmpcfg12Address) (hl : lenOf s.mxl = some l) (hm : s.mode = .belowM) :
    access i effect s = .next (raise (.illegalInstruction (encodeWord i)) s) := by
  simp [access, hc, hl, hm]

/-- If an access answers a next state, it is one of these two. -/
theorem access_next {i : Instr} {effect : Len → State → State} {s t : State} (h : access i effect s = .next t) :
    i.csr = Config.pmpcfg12Address ∧ ∃ l, lenOf s.mxl = some l ∧
      ((s.mode = .M ∧ t = effect l s) ∨
        (s.mode = .belowM ∧ t = raise (.illegalInstruction (encodeWord i)) s)) := by
  unfold access at h
  split at h
  case isFalse => cases h
  case isTrue hc =>
    split at h
    · cases h
    · rename_i l hl
      refine ⟨hc, l, hl, ?_⟩
      split at h <;> cases h
      · exact .inr ⟨by assumption, rfl⟩
      · exact .inl ⟨by assumption, rfl⟩

/-- The same for an effect that is a read-modify-write. -/
theorem access_next_of_effect {i : Instr} {effect : Len → State → State} {s t : State}
    (h : access i effect s = .next t)
    (he : ∀ l s, ∃ rd reads written, effect l s = readModifyWrite l rd reads written s) :
    i.csr = Config.pmpcfg12Address ∧ ∃ l, lenOf s.mxl = some l ∧
      ((s.mode = .M ∧ ∃ rd reads written, t = readModifyWrite l rd reads written s) ∨
        (s.mode = .belowM ∧ t = raise (.illegalInstruction (encodeWord i)) s)) := by
  obtain ⟨hc, l, hl, ⟨hm, ht⟩ | ht⟩ := access_next h
  · exact ⟨hc, l, hl, .inl ⟨hm, by rw [ht]; exact he l s⟩⟩
  · exact ⟨hc, l, hl, .inr ht⟩

/-- Every instruction that answers a next state either raises or is a read-modify-write. -/
theorem exec_next {i : Instr} {s t : State} (h : exec i s = .next t) :
    i.csr = Config.pmpcfg12Address ∧ ∃ l, lenOf s.mxl = some l ∧
      ((s.mode = .M ∧ ∃ rd reads written, t = readModifyWrite l rd reads written s) ∨
        (s.mode = .belowM ∧ t = raise (.illegalInstruction (encodeWord i)) s)) := by
  cases i with
  | csrrw rd csr rs1 =>
    simp only [exec, execCsrrw] at h
    exact access_next_of_effect h fun l s => ⟨_, _, _, rfl⟩
  | csrrs rd csr rs1 =>
    simp only [exec, execCsrrs] at h
    exact access_next_of_effect h fun l s => ⟨_, _, _, rfl⟩
  | csrrc rd csr rs1 =>
    simp only [exec, execCsrrc] at h
    exact access_next_of_effect h fun l s => ⟨_, _, _, rfl⟩
  | csrrwi rd csr uimm =>
    simp only [exec, execCsrrwi] at h
    exact access_next_of_effect h fun l s => ⟨_, _, _, rfl⟩
  | csrrsi rd csr uimm =>
    simp only [exec, execCsrrsi] at h
    exact access_next_of_effect h fun l s => ⟨_, _, _, rfl⟩
  | csrrci rd csr uimm =>
    simp only [exec, execCsrrci] at h
    exact access_next_of_effect h fun l s => ⟨_, _, _, rfl⟩

end Sys2Proof.Machine
end

