-- ==== Sys2Proof/Laws/Step.lean ====
section
/-!
SUPPORT. What a step of the machine can do, said once: an instruction of the hart in the state without its `run`
input, or one other input; and what an instruction and an input leave of the parameters, memory and the register.
-/

namespace Sys2Proof.Machine

/-- Well-formed means that the CSR operand is `pmpcfg12`. -/
theorem wellFormed_iff_csr {i : Instr} : i.wellFormed = true ↔ i.csr = Config.pmpcfg12Address := by
  cases i <;> simp [Instr.wellFormed, Instr.csr]

/-- Where the hart runs next, the step is one instruction of it. -/
theorem step_of_hartNext {s : State} (h : hartNext s = true) : step s = runInstruction (hartState s) := by
  obtain ⟨params, pmpcfg12, mxl, mode, x, pc, mem, trap, inputs, observed⟩ := s
  cases inputs with
  | nil => rfl
  | cons i rest => cases i <;> simp [hartNext] at h; rfl

/-- An instruction of the hart that answers a next state was fetched and decoded with no exception pending, and is
well formed. -/
theorem hart_step_next {s t : State} (hn : hartNext s = true) (h : step s = .next t) :
    s.trap = none ∧ ∃ i, i.wellFormed = true ∧ exec i (hartState s) = .next t := by
  rw [step_of_hartNext hn] at h
  unfold runInstruction at h
  split at h
  · cases h
  rename_i ht
  split at h
  · cases h
  split at h
  · cases h
  split at h
  · cases h
  rename_i i _ _
  exact ⟨ht, i, wellFormed_iff_csr.2 (exec_next h).1, h⟩

/-- A step that answers a next state is an instruction of the hart or one input. -/
theorem step_cases {s t : State} (h : step s = .next t) :
    (hartNext s = true ∧ s.trap = none ∧ ∃ i, i.wellFormed = true ∧ exec i (hartState s) = .next t) ∨
      (hartNext s = false ∧ ∃ i rest, i ≠ .run ∧ s.inputs = i :: rest ∧
        t = applyInput i { s with inputs := rest }) := by
  by_cases hn : hartNext s = true
  · exact .inl ⟨hn, hart_step_next hn h⟩
  · refine .inr ⟨by simpa using hn, ?_⟩
    unfold step at h
    split at h
    · rename_i hi
      simp [hartNext, hi] at hn
    · rename_i hi
      simp [hartNext, hi] at hn
    · rename_i i rest hne hi
      cases h
      exact ⟨i, rest, fun e => hne e, hi, rfl⟩

/-- An input leaves memory and the observations as they are. -/
theorem applyInput_mem_observed (i : Input) (s : State) :
    (applyInput i s).mem = s.mem ∧ (applyInput i s).observed = s.observed := by
  cases i <;> simp [applyInput, trapTaken]
  split <;> exact ⟨rfl, rfl⟩

/-- An input leaves the register as it is, or is a reset event and leaves 0. -/
theorem applyInput_pmpcfg12 (i : Input) (s : State) :
    (applyInput i s).pmpcfg12 = s.pmpcfg12 ∨
      (∃ launch, i = .reset launch) ∧ (applyInput i s).pmpcfg12 = 0#64 := by
  cases i <;> simp [applyInput, trapTaken, resetValue]
  split <;> simp

/-- The observations a step puts before the earlier ones are what it newly lets be observed, last first. -/
theorem newlyObserved_of_append {s t : State} {os : List Observation} (h : t.observed = os ++ s.observed) :
    newlyObserved s t = os.reverse := by
  simp [newlyObserved, h]

/-- A run of core operations after a run of core operations. -/
theorem coreRun_append (p : Params) (a b : List CoreOp) (S : Word64) :
    coreRun p (a ++ b) S =
      ((coreRun p b (coreRun p a S).1).1, (coreRun p a S).2 ++ (coreRun p b (coreRun p a S).1).2) := by
  induction a generalizing S with
  | nil => rfl
  | cons o rest ih => simp [coreRun, ih]

/-- A fetch that finds its four bytes. -/
theorem fetchBytes_ok {l : Len} {s : State} {b : Fin 4 → Byte}
    (h : ∀ n : Fin 4, Memory.read s.mem (codeAddress l s n.val) = some (b n)) :
    fetchBytes l s = .ok [b 0, b 1, b 2, b 3] := by
  have h0 := h 0
  have h1 := h 1
  have h2 := h 2
  have h3 := h 3
  simp only [Fin.val_zero, Fin.val_one, Fin.val_two] at h0 h1 h2
  change Memory.read s.mem (codeAddress l s 3) = _ at h3
  simp only [fetchBytes, fetchByte, h0, h1, h2, h3]

end Sys2Proof.Machine
end

