-- ==== Sys2Proof/Tests/Slice0.lean ====
section
/-!
SUPPORT. Tests on fixed values, the expected ones taken from spec/95_test_vectors.md, and for every statement with
hypotheses a state and operands that meet them.
-/

namespace Sys2Proof.Tests

open Sys2Proof.Machine

/-! ### Well-formedness: an ill-formed term for each check -/

theorem test_csrrw_other_csr_refused : (Instr.csrrw 1 0x3ad#12 2).wellFormed = false := by decide
theorem test_csrrs_other_csr_refused : (Instr.csrrs 1 0x3ab#12 2).wellFormed = false := by decide
theorem test_csrrc_other_csr_refused : (Instr.csrrc 1 0x000#12 2).wellFormed = false := by decide
theorem test_csrrwi_other_csr_refused : (Instr.csrrwi 1 0xfff#12 2#5).wellFormed = false := by decide
theorem test_csrrsi_other_csr_refused : (Instr.csrrsi 1 0x7ac#12 2#5).wellFormed = false := by decide
theorem test_csrrci_other_csr_refused : (Instr.csrrci 1 0x3a0#12 2#5).wellFormed = false := by decide
theorem test_csrrw_pmpcfg12_accepted : (Instr.csrrw 1 0x3ac#12 2).wellFormed = true := by decide

/-! ### Decoding: words written out field by field, csr rs1/uimm funct3 rd opcode (30_encoding.md R51, R53) -/

theorem test_decode_csrrw :
    decodeWord 0b001110101100_00110_001_00101_1110011#32 = .ok (.csrrw 5 0x3ac#12 6) := by decide
theorem test_decode_csrrs :
    decodeWord 0b001110101100_00111_010_00110_1110011#32 = .ok (.csrrs 6 0x3ac#12 7) := by decide
theorem test_decode_csrrc :
    decodeWord 0b001110101100_11111_011_00000_1110011#32 = .ok (.csrrc 0 0x3ac#12 31) := by decide
theorem test_decode_csrrwi :
    decodeWord 0b001110101100_11111_101_00101_1110011#32 = .ok (.csrrwi 5 0x3ac#12 31#5) := by decide
theorem test_decode_csrrsi :
    decodeWord 0b001110101100_00010_110_00000_1110011#32 = .ok (.csrrsi 0 0x3ac#12 2#5) := by decide
theorem test_decode_csrrci :
    decodeWord 0b001110101100_11000_111_00110_1110011#32 = .ok (.csrrci 6 0x3ac#12 24#5) := by decide

/-- `funct3` 000 and 100 are no CSR access (30_encoding.md R53), nor is another CSR or a cut word (R57, R51). -/
theorem test_decode_refuses :
    decodeWord 0x3ac00073#32 = .error (.notAnAccessToPmpcfg12 0x3ac00073#32) ∧
    decodeWord 0x3ac04073#32 = .error (.notAnAccessToPmpcfg12 0x3ac04073#32) ∧
    decodeWord 0x3ad312f3#32 = .error (.notAnAccessToPmpcfg12 0x3ad312f3#32) ∧
    decodeBytes [0xf3#8, 0x12#8, 0xc3#8] = .error .tooFewBytes := by decide

/-- The byte at the lowest address holds bits 7:0 (30_encoding.md R51). -/
theorem test_decode_little_endian :
    decodeBytes [0xf3#8, 0x12#8, 0xc3#8, 0x3a#8, 0x55#8] = .ok (.csrrw 5 0x3ac#12 6, [0x55#8]) := by decide

/-- The encoder on the words of 95_test_vectors.md: I1, I3, I12, I17. -/
theorem test_encode :
    encodeWord (.csrrw 5 0x3ac#12 6) = 0x3ac312f3#32 ∧ encodeWord (.csrrs 6 0x3ac#12 7) = 0x3ac3a373#32 ∧
    encodeWord (.csrrwi 6 0x3ac#12 16#5) = 0x3ac85373#32 ∧ encodeWord (.csrrci 6 0x3ac#12 24#5) = 0x3acc7373#32 := by
  decide

/-- The pseudo-instructions of program 1: `csrw pmpcfg12, x5` and `csrr x9, pmpcfg12`. -/
theorem test_pseudo :
    encodeWord (Pseudo.expand (.csrw 5)) = 0x3ac29073#32 ∧ encodeWord (Pseudo.expand (.csrr 9)) = 0x3ac024f3#32 := by
  decide

/-! ### The write function and the software write -/

/-- The parameters of a test. -/
def params (num gran : Nat) : Params := { numPmpEntries := num, pmpGranularity := gran }

/-- Vectors F1 to F21b of 95_test_vectors.md section 2: old, new, G, result. -/
theorem test_write_field :
    [(0x00#8, 0x1f#8, 2, 0x1f#8), (0x00#8, 0x9f#8, 0, 0x9f#8), (0x9f#8, 0x00#8, 0, 0x9f#8),
      (0x80#8, 0x1f#8, 2, 0x80#8), (0x00#8, 0x02#8, 0, 0x00#8), (0x00#8, 0x06#8, 2, 0x00#8),
      (0x00#8, 0x0a#8, 0, 0x00#8), (0x00#8, 0x82#8, 0, 0x00#8), (0x1f#8, 0x1e#8, 2, 0x1f#8),
      (0x00#8, 0x17#8, 0, 0x17#8), (0x00#8, 0x17#8, 2, 0x00#8), (0x00#8, 0x10#8, 1, 0x10#8),
      (0x00#8, 0x10#8, 2, 0x00#8), (0x00#8, 0x0f#8, 2, 0x0f#8), (0x00#8, 0x18#8, 2, 0x18#8),
      (0x00#8, 0x7f#8, 0, 0x1f#8), (0x00#8, 0x60#8, 0, 0x00#8), (0x00#8, 0xff#8, 2, 0x9f#8),
      (0x00#8, 0xe4#8, 0, 0x84#8), (0x1b#8, 0x62#8, 0, 0x1b#8), (0x1b#8, 0x72#8, 0, 0x1b#8),
      (0x07#8, 0x00#8, 2, 0x00#8), (0x00#8, 0x05#8, 2, 0x05#8), (0x00#8, 0xf7#8, 0, 0x97#8),
      (0x00#8, 0xf7#8, 2, 0x00#8)].all
      (fun v => writeField (params 64 v.2.2.1) .len64 0 v.1 v.2.1 == v.2.2.2) = true := by decide

/-- Rows W1, W2, W3, W5, W6, W7, W9, W12, W15, W17, W19 of section 3, at length 64: S before, value, NUM, G, S after. -/
theorem test_software_write_64 :
    [(0x0#64, 0x9b00840188ff0a17#64, 64, 2, 0x9b008401889f0000#64),
      (0x0#64, 0x9b00840188ff0a17#64, 64, 0, 0x9b008401889f0017#64),
      (0x0#64, 0xffffffffffffffff#64, 64, 0, 0x9f9f9f9f9f9f9f9f#64),
      (0x9f9f9f9f9f9f9f9f#64, 0x0#64, 64, 0, 0x9f9f9f9f9f9f9f9f#64),
      (0x0#64, 0x1f1f1f1f1f1f1f1f#64, 50, 0, 0x1f1f#64),
      (0x0#64, 0x1f1f1f1f1f1f1f1f#64, 48, 0, 0x0#64),
      (0x0#64, 0x1f1f1f1f1f1f1f1f#64, 53, 0, 0x1f1f1f1f1f#64),
      (0x801f#64, 0x0#64, 64, 0, 0x8000#64),
      (0x1f1f#64, 0x1e9d#64, 64, 0, 0x1f9d#64),
      (0x0#64, 0x1f00000000#64, 52, 0, 0x0#64),
      (0x9f#64, 0xffffffffffffffff#64, 56, 2, 0x9f9f9f9f9f9f9f9f#64)].all
      (fun v => swWrite (params v.2.2.1 v.2.2.2.1) .len64 v.2.1 v.1 == v.2.2.2.2) = true := by decide

/-- Rows W10, W11, W13, W14, at length 32: S before, value, NUM, S after, SWREAD after. -/
theorem test_software_write_32 :
    [(0x1b0f00981f000000#64, 0x0d0d0d0d#32, 64, 0x1b0f00980d0d0d0d#64, 0x0d0d0d0d#32),
      (0x1b0f00981f000000#64, 0x0#32, 64, 0x1b0f009800000000#64, 0x0#32),
      (0x0#64, 0x1f1f1f1f#32, 52, 0x1f1f1f1f#64, 0x1f1f1f1f#32),
      (0x0#64, 0x1f1f1f1f#32, 51, 0x1f1f1f#64, 0x1f1f1f#32)].all
      (fun v =>
        let after := swWrite (params v.2.2.1 0) .len32 v.2.1 v.1
        after == v.2.2.2.1 && swRead .len32 after == v.2.2.2.2) = true := by decide

/-! ### The instructions, one step each: vectors I1 to I19 of section 4 -/

/-- A machine as the vectors have it: NUM = 64, `pc` = 0x1000, the registers 0. -/
def machine (gran mxl : Nat) (mode : Mode) (S : Word64) : State :=
  { State.reset with params := params 64 gran, mxl := mxl, mode := mode, pmpcfg12 := S, pc := 0x1000#64 }

/-- The register, one general register and the program counter of a next state. -/
def seen (r : Reg) : Host.Outcome State Fault Refusal → Option (Word64 × Word64 × Word64)
  | .next t => some (t.pmpcfg12, readX .len64 r t, t.pc)
  | .fault _ => none
  | .refused _ => none

/-- What a step on a word lets be seen. -/
def seenOn (w : Nat) (r : Reg) (s : State) : Option (Word64 × Word64 × Word64) := seen r (step (s.withFetchWord 32 w))

/-- I1. -/
theorem test_csrrw_writes :
    seenOn 0x3ac312f3 5 (writeX .len64 6 0x1f#64 (machine 0 1 .M 0#64)) = some (0x1f#64, 0#64, 0x1004#64) := by
  decide
/-- I2: `rd` = `rs1`. -/
theorem test_csrrw_swaps :
    seenOn 0x3ac292f3 5 (writeX .len64 5 0x0700#64 (machine 0 1 .M 0x1b0f#64)) =
      some (0x0700#64, 0x1b0f#64, 0x1004#64) := by decide
/-- I3. -/
theorem test_csrrs_locks :
    seenOn 0x3ac3a373 6 (writeX .len64 7 0x80#64 (machine 0 1 .M 0x1f#64)) =
      some (0x9f#64, 0x1f#64, 0x1004#64) := by decide
/-- I5. -/
theorem test_csrrs_judges_fields_apart :
    seenOn 0x3ac2a373 6 (writeX .len64 5 0x0202#64 (machine 0 1 .M 0x0001#64)) =
      some (0x0003#64, 0x1#64, 0x1004#64) := by decide
/-- I8. -/
theorem test_csrrc_napot_to_na4_rejected :
    seenOn 0x3ac2b373 6 (writeX .len64 5 0x0808#64 (machine 2 1 .M 0x1f1f#64)) =
      some (0x1f1f#64, 0x1f1f#64, 0x1004#64) := by decide
/-- I9. -/
theorem test_csrrc_napot_to_na4_accepted :
    seenOn 0x3ac2b373 6 (writeX .len64 5 0x0808#64 (machine 0 1 .M 0x1f1f#64)) =
      some (0x1717#64, 0x1f1f#64, 0x1004#64) := by decide
/-- I11. -/
theorem test_csrrwi_clears_other_fields :
    seenOn 0x3acfd2f3 5 (machine 0 1 .M 0x1b00#64) = some (0x1f#64, 0x1b00#64, 0x1004#64) := by decide
/-- I12, at length 32. -/
theorem test_csrrwi_na4_rejected :
    seenOn 0x3ac85373 6 (machine 2 0 .M 0x1f1f#64) = some (0x001f#64, 0x1f1f#64, 0x1004#64) := by decide
/-- I14. -/
theorem test_csrrsi_sets_w :
    seenOn 0x3ac16073 0 (machine 0 1 .M 0x01#64) = some (0x03#64, 0#64, 0x1004#64) := by decide
/-- I15. -/
theorem test_csrrsi_w_alone_rejected :
    seenOn 0x3ac16073 0 (machine 0 1 .M 0x00#64) = some (0x00#64, 0#64, 0x1004#64) := by decide
/-- I17. -/
theorem test_csrrci_clears_a :
    seenOn 0x3acc7373 6 (machine 0 1 .M 0x1f#64) = some (0x07#64, 0x1f#64, 0x1004#64) := by decide
/-- I18. -/
theorem test_csrrci_clears_all :
    seenOn 0x3acff073 0 (machine 0 1 .M 0x1f#64) = some (0x00#64, 0#64, 0x1004#64) := by decide

/-- The exception a next state holds. -/
def raisedIn : Host.Outcome State Fault Refusal → Option Exception
  | .next t => t.trap
  | .fault _ => none
  | .refused _ => none

/-- I19: below M even a pure read raises, and `S`, `x7` and `pc` are unchanged. -/
theorem test_read_below_M_raises :
    raisedIn (step ((machine 0 1 .belowM 0x1f1f#64).withFetchWord 32 0x3ac023f3)) =
      some (.illegalInstruction 0x3ac023f3#32) ∧
    seenOn 0x3ac023f3 7 (machine 0 1 .belowM 0x1f1f#64) = some (0x1f1f#64, 0#64, 0x1000#64) := by decide

/-- Placed right after reset the six run as the first instruction, whatever the parameters are. -/
theorem test_first_instruction_after_reset :
    [0x3ac312f3, 0x3ac3a373, 0x3ac3b373, 0x3acfd2f3, 0x3ac16073, 0x3acc7373].all (fun w =>
      match step (State.reset.withFetchWord 32 w) with
      | .next t => t.pc == 4#64 && t.trap.isNone
      | .fault _ => false
      | .refused _ => false) = true := by decide

/-- `pc + 4` wraps modulo `2^len()` (10_state.md R27). -/
theorem test_pc_wraps_at_length_32 :
    (advancePc .len32 { State.reset with pc := 0xfffffffc#64 }).pc = 0#64 ∧
    (advancePc .len64 { State.reset with pc := 0xfffffffc#64 }).pc = 0x100000000#64 := by decide

/-- Program 3's change of MXL: the register is not modified (70_reset_and_hazards.md R101). -/
theorem test_mxl_change :
    seen 0 (step { machine 0 0 .M 0x1b0f00189f9f9f9f#64 with
      inputs := [.mxlBecomes 1 (Vector.replicate 31 0#64)] }) =
      some (0x1b0f00189f9f9f9f#64, 0#64, 0x1000#64) := by decide

/-- The reset event clears locked fields (70_reset_and_hazards.md R95). -/
theorem test_reset_event :
    seen 0 (step { machine 0 1 .M 0x9f9f9f9f9f9f9f9f#64 with
      inputs := [.reset { mxl := 0, mode := .M, pc := 0#64, x := Vector.replicate 31 0#64 }] }) =
      some (0#64, 0#64, 0#64) := by decide

/-- Entry verdicts: the field 0x1c (NAPOT, X only) below M, and 0x1f unlocked in mode M (20_memory.md R38, R43). -/
theorem test_entry_verdicts :
    (decodeEntry 0x1c#8).verdict .belowM .fetch 0x80#64 = .allowed ∧
    (decodeEntry 0x1c#8).verdict .belowM .load 0x80#64 = .denied (.loadAccessFault 0x80#64) ∧
    (decodeEntry 0x1f#8).verdict .M .store 0x80#64 = .notApplied ∧
    (decodeEntry 0x60#8).A = .off := by decide

/-- The reserved combination in a disabled entry and in an unlocked one in mode M (20_memory.md R38, R39; DESIGN CHOICE,
log entry 12), and in an enabled one below M, which is refused (R43). -/
theorem test_reserved_entries :
    (decodeEntry 0x82#8).verdict .belowM .load 0x80#64 = .noMatch ∧
    (decodeEntry 0x82#8).verdict .M .load 0x80#64 = .noMatch ∧
    (decodeEntry 0x0a#8).verdict .M .load 0x80#64 = .notApplied ∧
    (decodeEntry 0x0a#8).verdict .belowM .load 0x80#64 = .refusedReservedPermissions := by decide

/-- The region of an NA4 field: four bytes aligned to four; OFF's is null (20_memory.md R39). -/
theorem test_regions :
    isRegionOf (decodeEntry 0x17#8).A 0x1004 4 = true ∧ isRegionOf (decodeEntry 0x17#8).A 0x1002 4 = false ∧
    isRegionOf (decodeEntry 0x17#8).A 0x1004 8 = false ∧ isRegionOf (decodeEntry 0x07#8).A 0x1004 4 = false := by decide

/-! ### Witnesses: states and operands that meet the hypotheses of the statements -/

/-- The machine of I1, with its word in memory. -/
def placed : State := (writeX .len64 6 0x1f#64 (machine 0 1 .M 0#64)).withFetchWord 32 0x3ac312f3

/-- The four bytes of I1's word. -/
def placedBytes : Fin 4 → Byte := fun n => [0xf3#8, 0x12#8, 0xc3#8, 0x3a#8][n.val]!

theorem witness_DecodeOfEncodeIsIdentity : (Instr.csrrc 31 0x3ac#12 31).wellFormed = true := by decide
theorem witness_EncodeOfDecodeIsIdentity : decodeWord 0x3acfd2f3#32 = .ok (.csrrwi 5 0x3ac#12 31#5) := by decide
theorem witness_DecoderSelectsByOpcodeCsrAndFunct3 :
    ((0x3ac312f3#32).extractLsb' 0 7 = 0b1110011#7 ∧ (0x3ac312f3#32).extractLsb' 20 12 = 0x3ac#12) ∧
    ¬((0x3ad312f3#32).extractLsb' 0 7 = 0b1110011#7 ∧ (0x3ad312f3#32).extractLsb' 20 12 = 0x3ac#12) := by decide

theorem witness_StepRunsTheDecodedInstruction :
    hartNext placed = true ∧ placed.trap = none ∧ lenOf placed.mxl = some .len64 ∧
    (∀ n : Fin 4, Memory.read placed.mem (pcOf .len64 placed + BitVec.ofNat Len.len64.bits n.val).toNat =
      some (placedBytes n)) ∧
    decodeWord (placedBytes 3 ++ placedBytes 2 ++ placedBytes 1 ++ placedBytes 0) = .ok (.csrrw 5 0x3ac#12 6) := by
  decide

/-- At length 32 the four bytes may wrap past the last address. -/
theorem witness_StepRefusesOtherWords :
    let s : State := ({ machine 0 0 .M 0#64 with pc := 0xfffffffe#64 }).withFetchWord 32 0x13
    hartNext s = true ∧ s.trap = none ∧ lenOf s.mxl = some .len32 ∧
    (∀ n : Fin 4, Memory.read s.mem (pcOf .len32 s + BitVec.ofNat Len.len32.bits n.val).toNat =
      some ([0x13#8, 0x00#8, 0x00#8, 0x00#8][n.val]!)) ∧
    (0x00#8 ++ 0x00#8 ++ 0x00#8 ++ 0x13#8) &&& 0xfff0707f#32 ∉
      [0x3ac01073#32, 0x3ac02073#32, 0x3ac03073#32, 0x3ac05073#32, 0x3ac06073#32, 0x3ac07073#32] := by decide

/-- At the first byte and at the last. -/
theorem witness_FetchFaultsAtTheFirstUnwrittenByte :
    let s : State := machine 0 1 .M 0#64
    let t : State := { s with mem := [(0x1000, 0x73#8), (0x1001, 0x10#8), (0x1002, 0xc0#8)] }
    (hartNext s = true ∧ s.trap = none ∧ lenOf s.mxl = some .len64 ∧
      Memory.read s.mem (pcOf .len64 s + BitVec.ofNat Len.len64.bits 0).toNat = none) ∧
    (hartNext t = true ∧ t.trap = none ∧ lenOf t.mxl = some .len64 ∧
      Memory.read t.mem (pcOf .len64 t + BitVec.ofNat Len.len64.bits 3).toNat = none ∧
      (∀ m : Fin 4, m < 3 → Memory.read t.mem (pcOf .len64 t + BitVec.ofNat Len.len64.bits m.val).toNat ≠ none)) := by decide

/-- With an input waiting, an exception pending and bits above `nbits`. -/
theorem witness_PlacedWordRunsNext :
    let s : State :=
      { machine 0 0 .M 0#64 with inputs := [.modeBecomes .belowM], trap := some (.illegalInstruction 0#32) }
    lenOf s.mxl = some .len32 ∧ decodeTableWord 32 0x13ac02573 = some (.csrrs 10 0x3ac#12 0) := by decide

/-- A step that answers a next state; it changes the register, in mode M. -/
theorem witness_ParametersAreFixed : seen 5 (step placed) = some (0x1f#64, 0#64, 0x1004#64) := by decide

/-- The register of test W1 after its write is legal, memory is sorted, and the step answers a next state. -/
theorem witness_StepKeepsInvariant :
    let s : State :=
      ({ machine 2 1 .M 0x9b008401889f0000#64 with mem := [(3, 0xff#8), (0x2000, 0#8)] }).withFetchWord 32 0x3acfd2f3
    ((∀ k : Fin 8, legalField s.params k (cfg s.pmpcfg12 k) = true) ∧ Memory.wf s.mem = true) ∧
    (seen 5 (step s)).isSome = true := by decide

/-- A locked field 7 and one step of the hart that is no reset. -/
theorem witness_LockedFieldIsConstantUntilReset :
    ∃ t : State, RunsWithoutReset ((machine 0 1 .M 0x8000000000000000#64).withFetchWord 32 0x3acfd2f3) t ∧
      cfg 0x8000000000000000#64 7 &&& 0x80#8 ≠ 0#8 := by
  refine ⟨_, .tail (.refl _) (by decide) rfl, by decide⟩

/-- One case by a reset event, one by an instruction. -/
theorem witness_OnlySoftwareWriteAndResetWriteTheRegister :
    (∃ t : State, step { machine 0 1 .M 0x1f#64 with
        inputs := [.reset { mxl := 1, mode := .M, pc := 0#64, x := Vector.replicate 31 0#64 }] } = .next t ∧
      t.pmpcfg12 ≠ 0x1f#64) ∧
    (∃ t : State, step placed = .next t ∧ t.pmpcfg12 ≠ placed.pmpcfg12) :=
  ⟨⟨_, rfl, by decide⟩, ⟨_, rfl, by decide⟩⟩

/-- The machine of I1 with a reset event, an instruction of the hart and a change of mode to come. -/
def placedWithInputs : State :=
  { placed with
    inputs :=
      [.reset { mxl := 1, mode := .M, pc := 0x1000#64, x := Vector.replicate 31 7#64 }, .run, .modeBecomes .belowM] }

/-- Three steps, one of each kind: their core operations are RESET and, as `rd` is `x5`, SWREAD and SWWRITE. -/
theorem witness_EveryRunIsARunOfCoreOperations :
    ∃ (t : State) (ops : List CoreOp), RunsBy placedWithInputs ops t ∧ t.pmpcfg12 = 0x7#64 ∧
      ops = [.reset, .swRead .len64, .swWrite .len64 0x7#64] :=
  ⟨_, _, .tail (.tail (.tail (.refl _) rfl) rfl) rfl, by decide, by decide⟩

/-- One step of each kind: an instruction that reads and writes, a reset event, and a change of mode. -/
theorem witness_EveryStepIsItsCoreOperations :
    (∃ t : State, step placed = .next t ∧ hartNext placed = true ∧
      stepOps placed t = [.swRead .len64, .swWrite .len64 0x1f#64]) ∧
    (∃ t : State, step placedWithInputs = .next t ∧ hartNext placedWithInputs = false ∧
      stepOps placedWithInputs t = [.reset]) ∧
    (∃ t : State, step { placed with inputs := [.modeBecomes .belowM] } = .next t ∧
      stepOps { placed with inputs := [.modeBecomes .belowM] } t = []) :=
  ⟨⟨_, rfl, by decide, by decide⟩, ⟨_, rfl, by decide, by decide⟩, ⟨_, rfl, by decide⟩⟩

/-- The machine of I19, with its word in memory. -/
def placedBelowM : State := (machine 0 1 .belowM 0x1f1f#64).withFetchWord 32 0x3ac023f3

theorem witness_NothingBelowMChangesTheRegister :
    ∃ t : State, placedBelowM.mode = .belowM ∧ hartNext placedBelowM = true ∧ step placedBelowM = .next t :=
  ⟨_, by decide, by decide, rfl⟩

theorem witness_OnlyIllegalInstructionIsRaised :
    ∃ t : State, step placedBelowM = .next t ∧ t.trap = some (.illegalInstruction 0x3ac023f3#32) ∧
      placedBelowM.trap ≠ some (.illegalInstruction 0x3ac023f3#32) :=
  ⟨_, rfl, by decide, by decide⟩

theorem witness_SoftwareWriteIsFieldByField :
    (0xdeadbeef0d0d0d0d#64).setWidth Len.len32.bits = (0x0d0d0d0d#32 : BitVec Len.len32.bits) := rfl
theorem witness_ReservedCombinationIsNeverStored :
    (0xfe#8).getLsbD 0 = false ∧ (0xfe#8).getLsbD 1 = true := by decide
/-- NA4 at the least granularity that forbids it; every field at the least NUM that makes it writable. -/
theorem witness_AddressModeEncodingsAndLegality :
    (2 ≤ (params 64 2).pmpGranularity ∧ (0x17#8).extractLsb' 3 2 = 2#2) ∧
    (48 + (7 : Fin 8).val < (params 56 1).numPmpEntries ∧ (params 56 1).pmpGranularity < 2) ∧
    (48 + (0 : Fin 8).val < (params 49 2).numPmpEntries ∧ (3#2 : BitVec 2) ≠ 2#2) := by decide
theorem witness_ResetEvents :
    ∃ (s : State) (launch : Launch) (rest : List Input), s.inputs = .reset launch :: rest :=
  ⟨{ machine 0 1 .M 0x9f#64 with
      inputs := [.reset { mxl := 0, mode := .belowM, pc := 4#64, x := Vector.replicate 31 1#64 }, .run] }, _, _, rfl⟩
theorem witness_WriteBackChangesNothing :
    ∀ k : Fin 8, legalField (params 56 2) k (cfg 0x9b008401889f0000#64 k) = true := by decide
/-- Registers and values that agree on field 3 and on no other. -/
theorem witness_FieldsAreIndependent :
    cfg 0x1f000000#64 3 = cfg 0xffffffff1fffffff#64 3 ∧
    cfg ((0x0d000000#32 : BitVec Len.len32.bits).setWidth 64) 3 =
      cfg ((0x0dffffff#32 : BitVec Len.len32.bits).setWidth 64) 3 := by decide
theorem witness_LegalFieldValuesAreCounted :
    48 + (7 : Fin 8).val < (params 56 1).numPmpEntries ∧ 48 + (0 : Fin 8).val < (params 49 2).numPmpEntries := by decide

/-- Mode M at both lengths: the hypotheses of the results of the six instructions. -/
theorem witness_instructions_in_M :
    (lenOf (machine 0 1 .M 0x1f#64).mxl = some .len64 ∧ (machine 0 1 .M 0x1f#64).mode = .M) ∧
    (lenOf (machine 2 0 .M 0x1f#64).mxl = some .len32 ∧ (machine 2 0 .M 0x1f#64).mode = .M) := by decide
theorem witness_AccessBelowMRaises :
    (Instr.csrrs 7 0x3ac#12 0).wellFormed = true ∧ lenOf placedBelowM.mxl = some .len64 ∧
    placedBelowM.mode = .belowM := by decide
/-- At the least MXL without a length, in either mode. -/
theorem witness_AccessWithoutLengthIsRefused :
    ((Instr.csrrs 7 0x3ac#12 0).wellFormed = true ∧ lenOf (machine 0 2 .belowM 0#64).mxl = none) ∧
    (hartNext (machine 0 2 .M 0#64) = true ∧ (machine 0 2 .M 0#64).trap = none ∧
      lenOf (machine 0 2 .M 0#64).mxl = none) := by decide
theorem witness_AccessToAnotherCsrIsRefused : (Instr.csrrw 1 0x3ad#12 2).csr ≠ 0x3ac#12 := by decide
theorem witness_RejectedWriteCompletes :
    (Instr.csrrwi 6 0x3ac#12 2#5).wellFormed = true ∧ lenOf (machine 0 0 .M 0x1f1f#64).mxl = some .len32 ∧
    (machine 0 0 .M 0x1f1f#64).mode = .M := by decide
theorem witness_SetClearImmediatesReachOnlyLowBits :
    ∃ t : State, (∀ k : Fin 8, legalField (params 64 0) k (cfg 0x9b00840188009f1f#64 k) = true) ∧
      exec (.csrrci 6 0x3ac#12 24#5) (machine 0 1 .M 0x9b00840188009f1f#64) = .next t ∧
      (∃ u : State, exec (.csrrsi 6 0x3ac#12 31#5) (machine 0 1 .M 0x9b00840188009f1f#64) = .next u) :=
  ⟨_, by decide, rfl, ⟨_, rfl⟩⟩
/-- The last field of the register at each length. -/
theorem witness_WriteImmediateClearsTheOtherFields :
    (lenOf (machine 0 0 .M 0x1f000000#64).mxl = some .len32 ∧ 48 + (3 : Fin 8).val < 64 ∧
      8 * (3 : Fin 8).val + 7 < Len.len32.bits ∧ cfg 0x1f000000#64 3 &&& 0x80#8 = 0#8) ∧
    (lenOf (machine 0 1 .M 0x1f00000000000000#64).mxl = some .len64 ∧ 48 + (7 : Fin 8).val < 64 ∧
      8 * (7 : Fin 8).val + 7 < Len.len64.bits ∧ cfg 0x1f00000000000000#64 7 &&& 0x80#8 = 0#8) := by decide

/-- A change of MXL, and its present value with other registers in the input. -/
theorem witness_MxlChangeKeepsTheRegister :
    (∃ (s : State) (x : Vector Word64 31) (rest : List Input),
      s.inputs = .mxlBecomes 1 x :: rest ∧ 1 ≠ s.mxl ∧ x ≠ s.x) ∧
    (∃ (s : State) (x : Vector Word64 31) (rest : List Input),
      s.inputs = .mxlBecomes 1 x :: rest ∧ 1 = s.mxl ∧ x ≠ s.x) :=
  ⟨⟨{ machine 0 0 .M 0x1b0f00189f9f9f9f#64 with inputs := [.mxlBecomes 1 (Vector.replicate 31 7#64)] },
      _, _, rfl, by decide, by decide⟩,
    ⟨{ machine 0 1 .M 0x1b0f00189f9f9f9f#64 with inputs := [.mxlBecomes 1 (Vector.replicate 31 7#64), .run] },
      _, _, rfl, by decide, by decide⟩⟩
theorem witness_ModeIsAnInput : ∃ (s : State) (rest : List Input), s.inputs = .modeBecomes .belowM :: rest :=
  ⟨{ machine 0 1 .M 0#64 with inputs := [.modeBecomes .belowM, .run] }, _, rfl⟩
theorem witness_TrapMechanismTakesControl :
    (∃ (s : State) (e : Exception), s.trap = some e ∧ hartNext s = true) ∧
    (∃ (s : State) (e : Exception) (rest : List Input), s.trap = some e ∧ s.inputs = .trapTaken .M 0x1004#64 :: rest) ∧
    (∃ (s : State) (rest : List Input), s.trap = none ∧ s.inputs = .trapTaken .M 0x1004#64 :: rest) :=
  ⟨⟨{ placedBelowM with trap := some (.illegalInstruction 0x3ac023f3#32) }, _, rfl, rfl⟩,
    ⟨{ placedBelowM with trap := some (.illegalInstruction 0x3ac023f3#32), inputs := [.trapTaken .M 0x1004#64] },
      _, _, rfl, rfl⟩,
    ⟨{ placedBelowM with inputs := [.trapTaken .M 0x1004#64, .run] }, _, rfl, rfl⟩⟩

/-- The region that the third clause of the statement speaks of. -/
theorem witness_RegionsHaveTheirLengthAndAlignment : isRegionOf .na4 0x1004 4 = true := by decide
theorem witness_PermissionTable :
    (decodeEntry 0x9c#8).A ≠ .off ∧ (decodeEntry 0x9c#8).L = true ∧
    ¬((decodeEntry 0x9c#8).R = false ∧ (decodeEntry 0x9c#8).W = true) := by decide
/-- Entries for each clause; 0x82 (OFF, locked) and 0x0a (unlocked, for mode M) hold the reserved combination, where the
clauses meet: neither meets the hypotheses of the last one. -/
theorem witness_EntriesOutsideThePermissionTable :
    (decodeEntry 0x87#8).A = .off ∧
    ((decodeEntry 0x82#8).A = .off ∧ (decodeEntry 0x82#8).L = true ∧ (decodeEntry 0x82#8).R = false ∧
      (decodeEntry 0x82#8).W = true) ∧
    ((decodeEntry 0x0f#8).A ≠ .off ∧ (decodeEntry 0x0f#8).L = false) ∧
    ((decodeEntry 0x0a#8).A ≠ .off ∧ (decodeEntry 0x0a#8).L = false ∧ (decodeEntry 0x0a#8).R = false ∧
      (decodeEntry 0x0a#8).W = true) ∧
    ((decodeEntry 0x8a#8).A ≠ .off ∧ (decodeEntry 0x8a#8).L = true ∧ (decodeEntry 0x8a#8).R = false ∧
      (decodeEntry 0x8a#8).W = true) := by decide
theorem witness_ReadOnlyEntriesAreDisabled :
    let s : State := { machine 0 1 .M 0x1f1f#64 with params := params 50 0 }
    (∀ k : Fin 8, legalField s.params k (cfg s.pmpcfg12 k) = true) ∧ s.params.numPmpEntries ≤ 48 + (2 : Fin 8).val := by
  decide

end Sys2Proof.Tests
end

section
/-!
PROOFS. The statements of 00_scope.md (R2 to R4, R6): the parameters are fixed, an MXL without a length is refused by
name, and the mode is an input.
-/

namespace Sys2Proof.Machine

/-! ### The length -/

/-- The values of MXL that give no length (00_scope.md R4). -/
theorem lenOf_eq_none_iff (mxl : Nat) : lenOf mxl = none ↔ mxl ≠ 0 ∧ mxl ≠ 1 := by
  match mxl with
  | 0 => simp [lenOf]
  | 1 => simp [lenOf]
  | _ + 2 => simp [lenOf]

/-! ### Instructions -/

/-- Every instruction is an access of its own: its effect is all that tells the six apart. -/
theorem exec_eq_access (i : Instr) : ∃ effect, ∀ s : State, exec i s = access i effect s := by
  cases i <;> exact ⟨_, fun _ => rfl⟩

/-- An access where MXL gives no length is refused, whatever the mode is. -/
theorem access_without_length {i : Instr} {effect : Len → State → State} {s : State}
    (hc : i.csr = Config.pmpcfg12Address) (hl : lenOf s.mxl = none) :
    access i effect s = .refused (.mxlWithoutLength s.mxl) := by
  simp [access, hc, hl]

/-- An instruction changes no parameter, whether it completes or raises. -/
theorem exec_params {i : Instr} {s t : State} (h : exec i s = .next t) : t.params = s.params := by
  obtain ⟨_, l, _, ⟨_, rd, reads, written, rfl⟩ | ⟨_, rfl⟩⟩ := exec_next h
  · obtain ⟨hparams, _⟩ := readModifyWrite_surroundings l rd reads written s
    exact hparams
  · exact raise_params _ s

/-! ### Inputs and the step -/

@[simp] theorem hartState_params (s : State) : (hartState s).params = s.params := rfl

/-- The trap mechanism changes no parameter, whether an exception is pending or not. -/
@[simp] theorem trapTaken_params (mode : Mode) (pc : Word64) (s : State) : (trapTaken mode pc s).params = s.params := by
  unfold trapTaken
  split <;> rfl

/-- An input changes no parameter. -/
@[simp] theorem applyInput_params (i : Input) (s : State) : (applyInput i s).params = s.params := by
  cases i with
  | run => rfl
  | reset launch => exact applyReset_params launch s
  | mxlBecomes mxl x => exact applyMxl_params mxl x s
  | modeBecomes mode => rfl
  | trapTaken mode pc => exact trapTaken_params mode pc s

/-- Where an input other than `run` waits first, the step is that input. -/
theorem step_of_input {s : State} {i : Input} {rest : List Input} (h : s.inputs = i :: rest) (hi : i ≠ .run) :
    step s = .next (applyInput i { s with inputs := rest }) := by
  unfold step
  rw [h]
  cases i with
  | run => exact absurd rfl hi
  | reset _ | mxlBecomes _ _ | modeBecomes _ | trapTaken _ _ => rfl

/-- The hart's instruction is refused where MXL gives no length, before memory is looked at. -/
theorem runInstruction_without_length {s : State} (ht : s.trap = none) (hl : lenOf s.mxl = none) :
    runInstruction s = .refused (.mxlWithoutLength s.mxl) := by
  simp [runInstruction, ht, hl]

/-! ### The obligations -/

/-- Settles O9: a step is an instruction of the hart or one input, and neither changes a parameter. -/
theorem parametersAreFixed : Obligations.ParametersAreFixed := by
  intro s t h
  obtain ⟨_, _, i, _, hexec⟩ | ⟨_, i, rest, _, _, rfl⟩ := step_cases h
  · calc t.params = (hartState s).params := exec_params hexec
      _ = s.params := hartState_params s
  · exact applyInput_params i { s with inputs := rest }

/-- Settles O41: every instruction is an access, and both the access and the hart's step ask for the length first. -/
theorem accessWithoutLengthIsRefused : Obligations.AccessWithoutLengthIsRefused := by
  refine ⟨lenOf_eq_none_iff, fun i s hwf hl => ?_, fun s hn ht hl => ?_⟩
  · obtain ⟨effect, heffect⟩ := exec_eq_access i
    rw [heffect s]
    exact access_without_length (wellFormed_iff_csr.1 hwf) hl
  · rw [step_of_hartNext hn]
    exact runInstruction_without_length ht hl

/-- Settles O49: the step is the input, and its effect is the change of the mode alone. -/
theorem modeIsAnInput : Obligations.ModeIsAnInput := by
  intro s mode rest h
  exact step_of_input h (by simp)

end Sys2Proof.Machine
end

section
/-!
PROOFS. The statements of 10_state.md: where the sub-fields stand (R12), the length (R13, R14), what a field can hold
(R16, R19, R21, R22, R25), that only the software write and reset write the register (R24), and `x0` (R26).
-/

namespace Sys2Proof.Machine

/-! ### Sub-fields and their masks -/

/-- Bits of a field are bits of the register. -/
theorem cfg_extractLsb' (S : Word64) (k : Fin 8) {i n : Nat} (h : i + n ≤ 8) :
    (cfg S k).extractLsb' i n = S.extractLsb' (8 * k.val + i) n := by
  ext j hj
  have hij : i + j < 8 := by omega
  simp [cfg, hij, Nat.add_assoc]

/-- The upper half of the register is its fields 4 to 7 (R14). -/
theorem extractLsb'_upperHalf (S : Word64) :
    S.extractLsb' 32 32 = cfg S 7 ++ (cfg S 6 ++ (cfg S 5 ++ cfg S 4)) := by
  have h54 : cfg S 5 ++ cfg S 4 = S.extractLsb' 32 16 := BitVec.extractLsb'_append_extractLsb'_eq_extractLsb' rfl
  have h64 : cfg S 6 ++ S.extractLsb' 32 16 = S.extractLsb' 32 24 :=
    BitVec.extractLsb'_append_extractLsb'_eq_extractLsb' rfl
  have h74 : cfg S 7 ++ S.extractLsb' 32 24 = S.extractLsb' 32 32 :=
    BitVec.extractLsb'_append_extractLsb'_eq_extractLsb' rfl
  rw [h54, h64, h74]

/-- A bit of a field is set where its mask finds something. -/
theorem getLsbD_iff_and_twoPow (c : Byte) {i : Nat} (hi : i < 8) :
    c.getLsbD i = true ↔ c &&& BitVec.twoPow 8 i ≠ 0#8 := by
  have hmask : BitVec.twoPow 8 i ≠ 0#8 := fun h => by
    simpa [BitVec.getLsbD_twoPow, hi] using congrArg (·.getLsbD i) h
  rw [BitVec.and_twoPow]
  cases c.getLsbD i <;> simp [hmask]

/-- A two-bit mask leaves its two bits of a field at their place. -/
theorem and_twoBitMask (c : Byte) (i : Nat) : c &&& (3#8 <<< i) = (c.extractLsb' i 2).setWidth 8 <<< i := by
  have hmask (m : Nat) : (3#8).getLsbD m = decide (m < 2) := by
    rw [BitVec.getLsbD_ofNat, Nat.testBit_two_pow_sub_one 2 m, ← Bool.decide_and, decide_eq_decide]
    omega
  apply BitVec.eq_of_getLsbD_eq
  intro j hj
  by_cases hji : j < i
  · simp [hji]
  · have hplace : i + (j - i) = j := by omega
    have hin : j - i < 8 := by omega
    simp only [BitVec.getLsbD_and, BitVec.getLsbD_shiftLeft, BitVec.getLsbD_setWidth, BitVec.getLsbD_extractLsb',
      hmask, hplace, hj, hji, hin, decide_true, decide_false, Bool.not_false, Bool.true_and, Bool.and_comm]

/-- The reserved combination is `R` = 0 with `W` = 1 (R21). -/
theorem reservedPermissions_eq_true_iff (c : Byte) :
    reservedPermissions c = true ↔ c.getLsbD 0 = false ∧ c.getLsbD 1 = true := by
  simp only [reservedPermissions, Bool.and_eq_true, Bool.not_eq_true']

/-- The permission test reads bits 2:0 alone, and six of their eight values pass it (R21). -/
theorem reservedPermissions_eq_false_iff (c : Byte) :
    reservedPermissions c = false ↔ c.extractLsb' 0 3 ∈ [0b000#3, 0b001#3, 0b011#3, 0b100#3, 0b101#3, 0b111#3] := by
  have hbits : reservedPermissions c = (!(c.extractLsb' 0 3).getLsbD 0 && (c.extractLsb' 0 3).getLsbD 1) := by
    simp [reservedPermissions]
  rw [hbits]
  generalize c.extractLsb' 0 3 = xwr
  revert xwr
  decide

/-- NA4 is invalid exactly for `A` = 2 at a granularity of 2 or more (R19). -/
theorem invalidNa4_eq_true_iff (p : Params) (c : Byte) :
    invalidNa4 p c = true ↔ 2 ≤ p.pmpGranularity ∧ addressModeBits c = 2#2 := by
  simp [invalidNa4]

/-- An address mode alone in a byte reserves no permissions, and is read back with bits 6:5 cleared or not. -/
theorem addressMode_alone (a : BitVec 2) :
    reservedPermissions (a.setWidth 8 <<< 3) = false ∧ addressModeBits (a.setWidth 8 <<< 3) = a ∧
      addressModeBits (a.setWidth 8 <<< 3 &&& 0x9f#8) = a := by
  revert a
  decide

/-! ### When the write function stores -/

/-- A value that fails test 2 or test 3 is not stored. -/
theorem writeField_of_illegal {p : Params} {new : Byte} (l : Len) (k : Fin 8) (old : Byte)
    (h : reservedPermissions new = true ∨ invalidNa4 p new = true) : writeField p l k old new = old := by
  obtain hold | ⟨_, _, _, _, hperm, hna4⟩ := writeField_cases p l k old new
  · exact hold
  · simp [hperm, hna4] at h

/-- A value that passes every test is stored without bits 6:5. -/
theorem writeField_of_tests {p : Params} {l : Len} {k : Fin 8} {old new : Byte} (hro : isReadOnly p k = false)
    (hin : isBeyond l k = false) (hlock : lockBit old = false) (hperm : reservedPermissions new = false)
    (hna4 : invalidNa4 p new = false) : writeField p l k old new = new &&& 0x9f#8 := by
  simp [writeField, hro, hin, hlock, hperm, hna4]

/-- A field outside the register at the current length is not written (R14). -/
theorem writeField_beyond {p : Params} {l : Len} {k : Fin 8} (old new : Byte) (h : isBeyond l k = true) :
    writeField p l k old new = old := by
  obtain hold | ⟨_, _, hin, _⟩ := writeField_cases p l k old new
  · exact hold
  · simp [h] at hin

/-- No field lies outside the register at length 64. -/
theorem isBeyond_len64 (k : Fin 8) : isBeyond .len64 k = false := by
  revert k
  decide

/-! ### Legal fields -/

/-- The four clauses of R22 in the tests of the write function. -/
theorem legalField_iff (p : Params) (k : Fin 8) (c : Byte) :
    legalField p k c = true ↔
      c.extractLsb' 5 2 = 0#2 ∧ reservedPermissions c = false ∧ invalidNa4 p c = false ∧
        (isReadOnly p k = true → c = 0#8) := by
  cases h : isReadOnly p k <;> simp [legalField, h, and_assoc]

/-- The reset value of a field is legal, whatever the parameters are. -/
theorem legalField_zero (p : Params) (k : Fin 8) : legalField p k 0#8 = true := by
  have hna4 : invalidNa4 p 0#8 = false := by simp [invalidNa4, addressModeBits]
  exact (legalField_iff p k 0#8).2 ⟨rfl, rfl, hna4, fun _ => rfl⟩

/-- What the write function leaves of a legal field is legal: the old value, or a value that passed the tests for (b)
and (c), was masked for (a), and stands in no read-only field (R22). -/
theorem legalField_writeField {p : Params} {k : Fin 8} {old : Byte} (h : legalField p k old = true) (l : Len)
    (new : Byte) : legalField p k (writeField p l k old new) = true := by
  obtain hold | ⟨hnew, hro, _, _, hperm, hna4⟩ := writeField_cases p l k old new
  · rw [hold]
    exact h
  · obtain ⟨hperm', hna4', hreserved⟩ := mask_keeps_tests p new
    rw [hnew, legalField_iff, hperm', hna4']
    exact ⟨hreserved, hperm, hna4, by simp [hro]⟩

/-- The clauses of R22 in the source's masks. -/
theorem legalField_masks {p : Params} {k : Fin 8} {c : Byte} (h : legalField p k c = true) :
    c &&& 0x60#8 = 0#8 ∧ ¬(c &&& 0x01#8 = 0#8 ∧ c &&& 0x02#8 = 0x02#8) ∧
      (2 ≤ p.pmpGranularity → c &&& 0x18#8 ≠ 0x10#8) ∧ (p.numPmpEntries ≤ 48 + k.val → c = 0#8) := by
  obtain ⟨hreserved, hperm, hna4, hro⟩ := (legalField_iff p k c).1 h
  refine ⟨?bits65, ?permissions, fun hgran hmask => ?na4, fun hnum => hro (decide_eq_true hnum)⟩
  case bits65 =>
    have hmask : c &&& 0x60#8 = (c.extractLsb' 5 2).setWidth 8 <<< 5 := and_twoBitMask c 5
    rw [hmask, hreserved]
    rfl
  case permissions =>
    rintro ⟨hR, hW⟩
    have hRbit : c.getLsbD 0 = false :=
      Bool.eq_false_iff.2 fun hbit => (getLsbD_iff_and_twoPow c (by decide)).1 hbit hR
    have hWbit : c.getLsbD 1 = true :=
      (getLsbD_iff_and_twoPow c (by decide)).2 fun hzero => absurd (hW.symm.trans hzero) (by decide)
    simp [(reservedPermissions_eq_true_iff c).2 ⟨hRbit, hWbit⟩] at hperm
  case na4 =>
    have hA : (addressModeBits c).setWidth 8 <<< 3 = 0x10#8 := (and_twoBitMask c 3).symm.trans hmask
    have hmode : addressModeBits c = 2#2 := by
      obtain ⟨_, hback, _⟩ := addressMode_alone (addressModeBits c)
      rw [← hback, hA]
      rfl
    simp [(invalidNa4_eq_true_iff p c).2 ⟨hgran, hmode⟩] at hna4

/-! ### Legal registers -/

/-- The reset value of the register is legal. -/
theorem legalRegister_resetValue (p : Params) : LegalRegister p resetValue := fun k => by
  rw [cfg_resetValue]
  exact legalField_zero p k

/-- A software write keeps the register legal. -/
theorem legalRegister_swWrite {p : Params} {S : Word64} (h : LegalRegister p S) (l : Len) (v : BitVec l.bits) :
    LegalRegister p (swWrite p l v S) := fun k => by
  rw [cfg_swWrite]
  exact legalField_writeField (h k) l _

/-- A core operation keeps the register legal. -/
theorem legalRegister_coreStep {p : Params} {S : Word64} (h : LegalRegister p S) (o : CoreOp) :
    LegalRegister p (coreStep p o S) := by
  cases o with
  | reset => exact legalRegister_resetValue p
  | swRead l => exact h
  | swWrite l value => exact legalRegister_swWrite h l value

/-- A run of core operations keeps the register legal. -/
theorem legalRegister_coreRun {p : Params} {S : Word64} (h : LegalRegister p S) (ops : List CoreOp) :
    LegalRegister p (coreRun p ops S).1 := by
  induction ops generalizing S with
  | nil => exact h
  | cons o rest ih => exact ih (legalRegister_coreStep h o)

/-! ### What a step does to memory and to the register -/

/-- An instruction leaves memory as it is. -/
theorem exec_mem {i : Instr} {s t : State} (h : exec i s = .next t) : t.mem = s.mem := by
  obtain ⟨_, l, _, ⟨_, rd, reads, written, rfl⟩ | ⟨_, rfl⟩⟩ := exec_next h
  · obtain ⟨_, _, _, hmem, _⟩ := readModifyWrite_surroundings l rd reads written s
    exact hmem
  · exact raise_mem _ s

/-- A step leaves memory as it is. -/
theorem step_mem {s t : State} (h : step s = .next t) : t.mem = s.mem := by
  obtain ⟨_, _, i, _, hexec⟩ | ⟨_, i, rest, _, _, rfl⟩ := step_cases h
  · have hmem : t.mem = (hartState s).mem := exec_mem hexec
    exact hmem
  · exact (applyInput_mem_observed i _).1

/-- `t` has the register that a software write, made and observed in mode M at the current length of `s`, leaves. -/
def SoftwareWriteInM (s t : State) : Prop :=
  s.mode = .M ∧ ∃ (l : Len) (v : BitVec l.bits), lenOf s.mxl = some l ∧
    t.pmpcfg12 = swWrite s.params l v s.pmpcfg12 ∧ Observation.write l v ∈ t.observed

/-- An instruction leaves the register as it is or makes a software write in mode M. -/
theorem exec_pmpcfg12 {i : Instr} {s t : State} (h : exec i s = .next t) :
    t.pmpcfg12 = s.pmpcfg12 ∨ SoftwareWriteInM s t := by
  obtain ⟨_, l, hl, ⟨hM, rd, reads, written, rfl⟩ | ⟨_, rfl⟩⟩ := exec_next h
  · have hreg := readModifyWrite_pmpcfg12 l rd reads written s
    have hobs := readModifyWrite_observed l rd reads written s
    cases written with
    | none => exact .inl hreg
    | some f => exact .inr ⟨hM, l, f (swRead l s.pmpcfg12), hl, hreg, by simp [hobs]⟩
  · exact .inl (raise_pmpcfg12 _ s)

/-- A step leaves the register as it is, is a reset event, or makes a software write in mode M (R24). -/
theorem step_pmpcfg12 {s t : State} (h : step s = .next t) :
    t.pmpcfg12 = s.pmpcfg12 ∨ (resetNext s = true ∧ t.pmpcfg12 = 0#64) ∨
      (hartNext s = true ∧ SoftwareWriteInM s t) := by
  obtain ⟨hn, _, i, _, hexec⟩ | ⟨_, i, rest, _, hinputs, rfl⟩ := step_cases h
  · obtain hkeep | hwrite := exec_pmpcfg12 hexec
    · exact .inl hkeep
    · exact .inr (.inr ⟨hn, hwrite⟩)
  · obtain hkeep | ⟨⟨launch, rfl⟩, hzero⟩ := applyInput_pmpcfg12 i { s with inputs := rest }
    · exact .inl hkeep
    · exact .inr (.inl ⟨by simp [resetNext, hinputs], hzero⟩)

/-! ### The number of legal field values -/

/-- What R22 asks of a field of type `RW-R`: all that the parameters still decide is whether NA4 can be stored. -/
def legalByte (na4 : Bool) (c : Byte) : Bool :=
  c.extractLsb' 5 2 == 0#2 && !reservedPermissions c && (na4 || addressModeBits c != 2#2)

/-- In a field of type `RW-R` the legal values are the legal bytes. -/
theorem legalField_of_readWrite {p : Params} {k : Fin 8} (h : 48 + k.val < p.numPmpEntries) (c : Byte) :
    legalField p k c = legalByte (decide (p.pmpGranularity < 2)) c := by
  have hro : isReadOnly p k = false := by simpa [isReadOnly] using h
  by_cases hgran : p.pmpGranularity < 2
  · have hna4 : ¬ 2 ≤ p.pmpGranularity := by omega
    simp [legalField, legalByte, invalidNa4, hro, hgran, hna4]
  · have hna4 : 2 ≤ p.pmpGranularity := by omega
    simp [legalField, legalByte, invalidNa4, hro, hgran, hna4, bne]

/-- Two values of `L`, six of `X W R`, and four of `A` or three without NA4. -/
theorem count_legalByte (na4 : Bool) :
    ((List.range 256).filter fun n => legalByte na4 (BitVec.ofNat 8 n)).length = if na4 then 48 else 36 := by
  revert na4
  decide

/-! ### The obligations -/

/-- Settles O10: no step writes memory or the parameters, and the register stays, is cleared, or is written by the
software write, which keeps it legal. -/
theorem stepKeepsInvariant : Obligations.StepKeepsInvariant := by
  intro s t ⟨hreg, hmem⟩ h
  refine ⟨?_, by rw [step_mem h]; exact hmem⟩
  rw [parametersAreFixed s t h]
  obtain hkeep | ⟨_, hzero⟩ | ⟨_, _, l, v, _, hwrite, _⟩ := step_pmpcfg12 h
  · rw [hkeep]
    exact hreg
  · rw [hzero]
    exact legalRegister_resetValue s.params
  · rw [hwrite]
    exact legalRegister_swWrite hreg l v

/-- Settles O12, by induction over the operations (`legalRegister_coreRun`). -/
theorem reachableFieldsAreLegal : Obligations.ReachableFieldsAreLegal := by
  intro p ops k
  exact legalField_masks (legalRegister_coreRun (legalRegister_resetValue p) ops k)

/-- Settles O14: of the three things a step can do to the register, two change it. -/
theorem onlySoftwareWriteAndResetWriteTheRegister : Obligations.OnlySoftwareWriteAndResetWriteTheRegister := by
  intro s t h hne
  exact (step_pmpcfg12 h).resolve_left hne

/-- Settles O31: the upper half is fields 4 to 7, and at length 32 each of them lies outside the register. -/
theorem upperHalfIsKeptAtLength32 : Obligations.UpperHalfIsKeptAtLength32 := by
  intro p v S
  have hkept (k : Fin 8) (hk : isBeyond .len32 k = true) : cfg (swWrite p .len32 v S) k = cfg S k := by
    rw [cfg_swWrite, writeField_beyond _ _ hk]
  rw [extractLsb'_upperHalf, extractLsb'_upperHalf, hkept 7 rfl, hkept 6 rfl, hkept 5 rfl, hkept 4 rfl]

/-- Settles O11: 0 is legal in every field, and empty memory is in canonical form. -/
theorem resetMeetsInvariant : Obligations.ResetMeetsInvariant :=
  ⟨legalRegister_resetValue _, reset_memory_wf⟩

/-- Settles O21: the software read at length 32 truncates to the low half. -/
theorem lengthFollowsMxl : Obligations.LengthFollowsMxl :=
  ⟨rfl, rfl, rfl, rfl, fun S => ⟨BitVec.setWidth_eq_extractLsb' (by decide), BitVec.setWidth_eq S⟩⟩

/-- Settles O22: a bit of an entry is a bit of its field, and so a bit of the register. -/
theorem subfieldsStandWhereTheyShould : Obligations.SubfieldsStandWhereTheyShould := by
  intro S k
  have hbit {i : Nat} (hi : i < 8) : (cfg S k).getLsbD i = S.getLsbD (8 * k.val + i) := by
    rw [cfg_getLsbD, decide_eq_true hi, Bool.true_and]
  have hmask {i : Nat} (hi : i < 8) := getLsbD_iff_and_twoPow (cfg S k) hi
  have hA : addressModeBits (cfg S k) = S.extractLsb' (8 * k.val + 3) 2 := cfg_extractLsb' S k (by decide)
  exact ⟨hbit (i := 0) (by decide), hbit (by decide), hbit (by decide), hA, congrArg addressModeOf hA,
    cfg_extractLsb' S k (by decide), hbit (by decide), hmask (by decide), hmask (by decide), hmask (by decide),
    hmask (by decide), and_twoBitMask _ 3, and_twoBitMask _ 5⟩

/-- Settles O23: bits 1:0 of the new value fail test 2. -/
theorem reservedCombinationIsNeverStored : Obligations.ReservedCombinationIsNeverStored := by
  refine ⟨fun p l k old new hR hW => ?_, reservedPermissions_eq_false_iff⟩
  exact writeField_of_illegal l k old (.inl ((reservedPermissions_eq_true_iff new).2 ⟨hR, hW⟩))

/-- Settles O24: NA4 at a granularity of 2 or more fails test 3, and every other mode passes all tests in an unlocked
field of type `RW-R`. -/
theorem addressModeEncodingsAndLegality : Obligations.AddressModeEncodingsAndLegality := by
  refine ⟨rfl, rfl, rfl, rfl, fun p l k old new hgran hA => ?_, fun p k a hnum hlegal => ?_⟩
  · exact writeField_of_illegal l k old (.inr ((invalidNa4_eq_true_iff p new).2 ⟨hgran, hA⟩))
  · obtain ⟨hperm, hA, hstored⟩ := addressMode_alone a
    have hro : isReadOnly p k = false := by simpa [isReadOnly] using hnum
    have hna4 : invalidNa4 p (a.setWidth 8 <<< 3) = false := by
      rw [Bool.eq_false_iff, ne_eq, invalidNa4_eq_true_iff, hA]
      rintro ⟨hgran, ha⟩
      exact hlegal.elim (fun hlt => absurd hgran (by omega)) (fun hne => hne ha)
    rw [writeField_of_tests hro (isBeyond_len64 k) rfl hperm hna4, hstored]

/-- Settles O25: every field of the reset value is 0, and 0 decodes to the entry that is off. -/
theorem resetValueIsZero : Obligations.ResetValueIsZero := by
  refine ⟨rfl, fun k => ?_⟩
  have hzero : cfg State.reset.pmpcfg12 k = 0#8 := cfg_zero k
  refine ⟨hzero, ?_⟩
  rw [entryOf, hzero]
  rfl

/-- Settles O33: the legal values of the field are the legal bytes at the granularity, and those are counted. -/
theorem legalFieldValuesAreCounted : Obligations.LegalFieldValuesAreCounted := by
  intro p k hnum
  simp only [legalField_of_readWrite hnum, count_legalByte, decide_eq_true_eq]

/-- Settles O47: neither a read nor a write of `x0` reaches the storage. -/
theorem zeroRegisterIsHardWired : Obligations.ZeroRegisterIsHardWired := by
  intro l v s
  exact ⟨rfl, rfl⟩

end Sys2Proof.Machine
end

section
/-!
PROOFS. The statements of 20_memory.md: the fetch that meets an unwritten byte (R30, R36), the decode of an entry (R37),
its region and its verdict (R38 to R45), and the read in a run of core operations (R46).
-/

namespace Sys2Proof.Machine

/-! ### A run of one core operation -/

/-- One core operation as a run leaves its register and returns its result. -/
theorem coreRun_singleton (p : Params) (o : CoreOp) (S : Word64) :
    coreRun p [o] S = (coreStep p o S, coreResult o S) := by
  simp [coreRun]

/-! ### A fetch that meets an unwritten byte -/

/-- A byte that nothing has stored is answered by its address. -/
theorem fetchByte_unwritten {l : Len} {s : State} {n : Nat} (h : Memory.read s.mem (codeAddress l s n) = none) :
    fetchByte l s n = .error (codeAddress l s n) := by
  simp only [fetchByte, h]

/-- A byte that something has stored is fetched. -/
theorem fetchByte_written {l : Len} {s : State} {n : Nat} (h : Memory.read s.mem (codeAddress l s n) ≠ none) :
    ∃ b, fetchByte l s n = .ok b := by
  obtain ⟨b, hb⟩ := Option.ne_none_iff_exists'.1 h
  exact ⟨b, by simp only [fetchByte, hb]⟩

/-- A fetch stops at the first of the four bytes that nothing has stored. -/
theorem fetchBytes_unwritten {l : Len} {s : State} {n : Nat} (hlt : n < 4)
    (hnone : Memory.read s.mem (codeAddress l s n) = none)
    (hbefore : ∀ m < n, Memory.read s.mem (codeAddress l s m) ≠ none) :
    fetchBytes l s = .error (codeAddress l s n) := by
  have hn := fetchByte_unwritten hnone
  have hok (m : Nat) (hm : m < n) : ∃ b, fetchByte l s m = .ok b := fetchByte_written (hbefore m hm)
  interval_cases n
  · simp only [fetchBytes, hn]
  · obtain ⟨b0, h0⟩ := hok 0 (by decide)
    simp only [fetchBytes, hn, h0]
  · obtain ⟨b0, h0⟩ := hok 0 (by decide)
    obtain ⟨b1, h1⟩ := hok 1 (by decide)
    simp only [fetchBytes, hn, h0, h1]
  · obtain ⟨b0, h0⟩ := hok 0 (by decide)
    obtain ⟨b1, h1⟩ := hok 1 (by decide)
    obtain ⟨b2, h2⟩ := hok 2 (by decide)
    simp only [fetchBytes, hn, h0, h1, h2]

/-- The hart stops with a fault where its fetch finds no byte. -/
theorem runInstruction_of_fetch_error {l : Len} {s : State} {a : Nat} (ht : s.trap = none)
    (hl : lenOf s.mxl = some l) (ha : fetchBytes l s = .error a) :
    runInstruction s = .fault (.fetchOfUnwrittenByte a) := by
  simp only [runInstruction, ht, hl, ha]

/-! ### The decode of an entry -/

/-- Each address mode by its bits at their place in a field (R37). -/
theorem addressModeOf_eq_iff_shifted (a : BitVec 2) :
    (addressModeOf a = .off ↔ a.setWidth 8 <<< 3 = 0x00#8) ∧ (addressModeOf a = .tor ↔ a.setWidth 8 <<< 3 = 0x08#8) ∧
      (addressModeOf a = .na4 ↔ a.setWidth 8 <<< 3 = 0x10#8) ∧
      (addressModeOf a = .napot ↔ a.setWidth 8 <<< 3 = 0x18#8) := by
  revert a
  decide

/-- Each address mode of a field in the source's mask. -/
theorem addressModeOf_eq_iff_and_mask (c : Byte) :
    (addressModeOf (addressModeBits c) = .off ↔ c &&& 0x18#8 = 0x00#8) ∧
      (addressModeOf (addressModeBits c) = .tor ↔ c &&& 0x18#8 = 0x08#8) ∧
      (addressModeOf (addressModeBits c) = .na4 ↔ c &&& 0x18#8 = 0x10#8) ∧
      (addressModeOf (addressModeBits c) = .napot ↔ c &&& 0x18#8 = 0x18#8) := by
  have hmask : c &&& 0x18#8 = (addressModeBits c).setWidth 8 <<< 3 := and_twoBitMask c 3
  rw [hmask]
  exact addressModeOf_eq_iff_shifted (addressModeBits c)

/-- Clearing bits 6:5 keeps the address mode. -/
theorem addressModeBits_and_mask (c : Byte) : addressModeBits (c &&& 0x9f#8) = addressModeBits c := by
  have hones : (0x9f#8).extractLsb' 3 2 = BitVec.allOnes 2 := by decide
  rw [addressModeBits, BitVec.extractLsb'_and, hones, BitVec.and_allOnes, addressModeBits]

/-- Bits 6:5 carry no meaning (R37). -/
theorem decodeEntry_and_mask (c : Byte) : decodeEntry (c &&& 0x9f#8) = decodeEntry c := by
  simp [decodeEntry, addressModeBits_and_mask]

/-! ### The regions -/

theorem isRegionOf_off (base bytes : Nat) : isRegionOf .off base bytes = true ↔ bytes = 0 := by
  simp [isRegionOf, regionBytes, regionAlignment]

theorem isRegionOf_na4 (base bytes : Nat) : isRegionOf .na4 base bytes = true ↔ bytes = 4 ∧ base % 4 = 0 := by
  simp [isRegionOf, regionBytes, regionAlignment]

/-! ### The verdict of an entry, one rule for each test -/

theorem Entry.disabled_iff (e : Entry) : e.disabled = true ↔ e.A = .off := by
  simp [Entry.disabled]

/-- An entry applies below M always, in M when it is locked (R38). -/
theorem Entry.appliesIn_iff (e : Entry) (mode : Mode) : e.appliesIn mode = true ↔ mode = .belowM ∨ e.L = true := by
  cases mode <;> simp [Entry.appliesIn]

section
variable {e : Entry} {mode : Mode} (kind : AccessKind) (address : Word64)

theorem Entry.verdict_of_off (hoff : e.A = .off) : e.verdict mode kind address = .noMatch := by
  simp [Entry.verdict, e.disabled_iff.2 hoff]

theorem Entry.verdict_of_not_applies (hon : e.A ≠ .off) (happ : e.appliesIn mode = false) :
    e.verdict mode kind address = .notApplied := by
  simp [Entry.verdict, e.disabled_iff, hon, happ]

/-- An enabled entry that applies is refused for the reserved combination, and answers by its permission bits without
it (R43). -/
theorem Entry.verdict_of_applies (hon : e.A ≠ .off) (happ : mode = .belowM ∨ e.L = true) :
    e.verdict mode kind address =
      if e.R = false ∧ e.W = true then .refusedReservedPermissions
      else if e.grants kind = true then .allowed
      else .denied (accessFault address kind) := by
  simp [Entry.verdict, e.disabled_iff, hon, (e.appliesIn_iff mode).2 happ]

end

/-! ### Fields of type RO -/

/-- A field of type `RO` is 0 in a legal register (R22). -/
theorem cfg_eq_zero_of_readOnly {p : Params} {S : Word64} {k : Fin 8} (h : LegalRegister p S)
    (hro : isReadOnly p k = true) : cfg S k = 0#8 := by
  obtain ⟨_, _, _, hzero⟩ := (legalField_iff p k (cfg S k)).1 (h k)
  exact hzero hro

/-! ### The obligations -/

/-- Settles O32: the read is the run of one operation after the others, from the register they left. -/
theorem readReturnsTheLatestRegister : Obligations.ReadReturnsTheLatestRegister := by
  intro p ops l S
  rw [coreRun_append, coreRun_singleton]
  rfl

/-- Settles O7: the bytes before it are fetched, so the fetch, and with it the step, stops there. -/
theorem fetchFaultsAtTheFirstUnwrittenByte : Obligations.FetchFaultsAtTheFirstUnwrittenByte := by
  intro s l n hn ht hl hnone hbefore
  have hfetch : fetchBytes l (hartState s) = .error (codeAddress l s n.val) :=
    fetchBytes_unwritten (s := hartState s) n.isLt hnone fun m hm => hbefore ⟨m, hm.trans n.isLt⟩ hm
  rw [step_of_hartNext hn]
  exact runInstruction_of_fetch_error ht hl hfetch

/-- Settles O51: without the reserved combination the governing bit decides, `X` for a fetch, `R` for a load, `W` for a
store and an AMO. -/
theorem permissionTable : Obligations.PermissionTable := by
  intro e mode address hon happ hperm
  have hbit (kind : AccessKind) : e.verdict mode kind address =
      if e.grants kind = true then .allowed else .denied (accessFault address kind) := by
    rw [Entry.verdict_of_applies kind address hon happ, if_neg hperm]
  exact ⟨hbit .fetch, hbit .load, hbit .store, hbit .amo⟩

/-- Settles O52: each clause stops at its own test of the verdict. -/
theorem entriesOutsideThePermissionTable : Obligations.EntriesOutsideThePermissionTable := by
  intro e mode kind address
  refine ⟨fun hoff => ?disabled, fun hon hunlocked => ?unlocked, fun hon happ hR hW => ?reserved⟩
  case disabled => exact Entry.verdict_of_off kind address hoff
  case unlocked => exact Entry.verdict_of_not_applies kind address hon hunlocked
  case reserved => rw [Entry.verdict_of_applies kind address hon happ, if_pos ⟨hR, hW⟩]

/-- Settles O53: the field is 0, and 0 decodes to an entry that is off. -/
theorem readOnlyEntriesAreDisabled : Obligations.ReadOnlyEntriesAreDisabled := by
  intro s k mode kind address hlegal hnum
  have hzero : cfg s.pmpcfg12 k = 0#8 := cfg_eq_zero_of_readOnly hlegal (decide_eq_true hnum)
  have hoff : (entryOf s k).A = .off := by
    rw [entryOf, hzero]
    rfl
  exact Entry.verdict_of_off kind address hoff

/-- Settles O56: the flags are single bits under their masks, and the mode is bits 4:3 under theirs. -/
theorem entryIsTheDecodeOfItsField : Obligations.EntryIsTheDecodeOfItsField := by
  refine ⟨fun c => ?_, fun s k => rfl⟩
  have hmask {i : Nat} (hi : i < 8) := getLsbD_iff_and_twoPow c hi
  obtain ⟨hoff, htor, hna4, hnapot⟩ := addressModeOf_eq_iff_and_mask c
  exact ⟨hmask (by decide), rfl, hoff, htor, hna4, hnapot, hmask (by decide), hmask (by decide), hmask (by decide),
    decodeEntry_and_mask c⟩

/-- Settles O57: four bytes from a multiple of four are the addresses with its quotient by four. -/
theorem regionsHaveTheirLengthAndAlignment : Obligations.RegionsHaveTheirLengthAndAlignment := by
  intro base bytes
  refine ⟨isRegionOf_off base bytes, isRegionOf_na4 base bytes, fun hregion a => ?_, rfl, rfl⟩
  obtain ⟨rfl, haligned⟩ := (isRegionOf_na4 base bytes).1 hregion
  omega

end Sys2Proof.Machine
end

section
/-!
PROOFS. The statements of 30_encoding.md on the decoder and the encoder: each is the inverse of the other (R51 to R53,
R57), and the decoder read field by field.
-/

namespace Sys2Proof

/-! ### The selecting fields of a word -/

/-- `opcode = insn[6:0]` (30_encoding.md R51). -/
def opcodeField (w : InsnWord) : BitVec 7 := w.extractLsb' 0 7

/-- `funct3 = insn[14:12]` (30_encoding.md R51). -/
def funct3Field (w : InsnWord) : BitVec 3 := w.extractLsb' 12 3

section
variable (csr : CsrAddress) (src : BitVec 5) (funct3 : BitVec 3) (rd : Reg)

@[simp] theorem opcodeField_encodeFields : opcodeField (encodeFields csr src funct3 rd) = 0b1110011#7 :=
  BitVec.extractLsb'_append_eq_right

@[simp] theorem funct3Field_encodeFields : funct3Field (encodeFields csr src funct3 rd) = funct3 := by
  apply BitVec.eq_of_getLsbD_eq
  intro i hi
  simp only [funct3Field, encodeFields, BitVec.getLsbD_extractLsb', BitVec.getLsbD_append]
  interval_cases i <;> simp

end

/-- A field of bits that the decoder's mask keeps is a field of the word. -/
theorem extractLsb'_and_matchMask (w : InsnWord) {start len : Nat}
    (h : matchMask.extractLsb' start len = BitVec.allOnes len) :
    (w &&& matchMask).extractLsb' start len = w.extractLsb' start len := by
  rw [BitVec.extractLsb'_and, h, BitVec.and_allOnes]

/-- A word with the opcode of the six instructions is the word of its fields. -/
theorem encodeFields_of_fields {w : InsnWord} (h : opcodeField w = 0b1110011#7) :
    encodeFields (csrField w) (uimmField w) (funct3Field w) (rdField w) = w := by
  have hrd : (BitVec.ofFin (rdField w) : BitVec 5) = w.extractLsb' 7 5 := rfl
  have hjoin (start len len' : Nat) :
      w.extractLsb' (start + len) len' ++ w.extractLsb' start len = w.extractLsb' start (len' + len) :=
    BitVec.extractLsb'_append_extractLsb'_eq_extractLsb' rfl
  rw [encodeFields, ← h, hrd, csrField, uimmField, funct3Field, opcodeField, hjoin 15 5 12, hjoin 12 3 17,
    hjoin 7 5 20, hjoin 0 7 25]
  exact BitVec.extractLsb'_eq_self

/-- Under the mask a word is a row's match value exactly where it has the row's opcode, CSR address and `funct3`
(30_encoding.md R53). -/
theorem and_matchMask_eq_iff (w : InsnWord) (csr : CsrAddress) (funct3 : BitVec 3) :
    w &&& matchMask = encodeFields csr 0#5 funct3 0 ↔
      opcodeField w = 0b1110011#7 ∧ csrField w = csr ∧ funct3Field w = funct3 := by
  constructor
  · intro h
    have hfield {start len : Nat} (hmask : matchMask.extractLsb' start len = BitVec.allOnes len) :
        w.extractLsb' start len = (encodeFields csr 0#5 funct3 0).extractLsb' start len := by
      rw [← h, extractLsb'_and_matchMask w hmask]
    exact ⟨(hfield (by decide)).trans (opcodeField_encodeFields csr 0#5 funct3 0),
      (hfield (by decide)).trans (csrField_encodeFields csr 0#5 funct3 0),
      (hfield (by decide)).trans (funct3Field_encodeFields csr 0#5 funct3 0)⟩
  · rintro ⟨hopcode, rfl, rfl⟩
    calc w &&& matchMask
        = encodeFields (csrField w) (uimmField w) (funct3Field w) (rdField w) &&& matchMask := by
          rw [encodeFields_of_fields hopcode]
      _ = encodeFields (csrField w) 0#5 (funct3Field w) 0 := encodeFields_and_matchMask ..

/-! ### The fields of an instruction -/

/-- The `funct3` of an instruction's row (30_encoding.md R53). -/
def Instr.funct3 : Instr → BitVec 3
  | .csrrw _ _ _ => 0b001
  | .csrrs _ _ _ => 0b010
  | .csrrc _ _ _ => 0b011
  | .csrrwi _ _ _ => 0b101
  | .csrrsi _ _ _ => 0b110
  | .csrrci _ _ _ => 0b111

/-- What an instruction has in bits 19:15: its source register or its immediate (30_encoding.md R52). -/
def Instr.source : Instr → BitVec 5
  | .csrrw _ _ rs1 | .csrrs _ _ rs1 | .csrrc _ _ rs1 => BitVec.ofFin rs1
  | .csrrwi _ _ uimm | .csrrsi _ _ uimm | .csrrci _ _ uimm => uimm

/-- The six instructions have one format. -/
theorem encodeWord_eq_encodeFields (i : Instr) : encodeWord i = encodeFields i.csr i.source i.funct3 i.rd := by
  cases i <;> rfl

/-- The match value of a row is the format with the operand fields 0. -/
theorem encodeFields_eq_matchValue (i : Instr) :
    encodeFields Config.pmpcfg12Address 0#5 i.funct3 0 = Laws.matchValue i := by
  cases i <;> (dsimp only [Instr.funct3, Laws.matchValue]; decide)

/-- Under the mask the word of a well-formed instruction is the match value of its row. -/
theorem encodeWord_and_matchMask {i : Instr} (h : i.wellFormed = true) :
    encodeWord i &&& matchMask = Laws.matchValue i := by
  cases i with
  | csrrw rd csr rs1 => exact Laws.EncodesToMatch.csrrw rd csr rs1 h
  | csrrs rd csr rs1 => exact Laws.EncodesToMatch.csrrs rd csr rs1 h
  | csrrc rd csr rs1 => exact Laws.EncodesToMatch.csrrc rd csr rs1 h
  | csrrwi rd csr uimm => exact Laws.EncodesToMatch.csrrwi rd csr uimm h
  | csrrsi rd csr uimm => exact Laws.EncodesToMatch.csrrsi rd csr uimm h
  | csrrci rd csr uimm => exact Laws.EncodesToMatch.csrrci rd csr uimm h

/-! ### What the decoder accepts -/

/-- The instruction has the operands that stand in the word. -/
def HasOperandsOf (i : Instr) (w : InsnWord) : Prop :=
  rdField w = i.rd ∧ csrField w = i.csr ∧ uimmField w = i.source

/-- The word of an instruction has its operands. -/
theorem hasOperandsOf_encodeWord (i : Instr) : HasOperandsOf i (encodeWord i) := by
  rw [encodeWord_eq_encodeFields]
  exact ⟨rdField_encodeFields .., csrField_encodeFields .., uimmField_encodeFields ..⟩

/-- A word with the match value of an instruction's row and its operands decodes to it. -/
theorem decodeWord_of_match {w : InsnWord} {i : Instr} (hrow : w &&& matchMask = Laws.matchValue i)
    (hops : HasOperandsOf i w) : decodeWord w = .ok i := by
  obtain ⟨hrd, hcsr, hsrc⟩ := hops
  have hrs1 : rs1Field w = i.source.toFin := congrArg BitVec.toFin hsrc
  unfold decodeWord
  rw [hrow, hrd, hcsr, hsrc, hrs1]
  cases i <;> rfl

/-- A word that decodes has the match value of the instruction's row and its operands. -/
theorem match_of_decodeWord {w : InsnWord} {i : Instr} (h : decodeWord w = .ok i) :
    w &&& matchMask = Laws.matchValue i ∧ HasOperandsOf i w := by
  unfold decodeWord at h
  split_ifs at h with h1 h2 h3 h5 h6 h7 <;> cases h
  · exact ⟨h1, rfl, rfl, rfl⟩
  · exact ⟨h2, rfl, rfl, rfl⟩
  · exact ⟨h3, rfl, rfl, rfl⟩
  · exact ⟨h5, rfl, rfl, rfl⟩
  · exact ⟨h6, rfl, rfl, rfl⟩
  · exact ⟨h7, rfl, rfl, rfl⟩

/-- The decoder undoes the encoder on well-formed instructions. -/
theorem decodeWord_encodeWord {i : Instr} (h : i.wellFormed = true) : decodeWord (encodeWord i) = .ok i :=
  decodeWord_of_match (encodeWord_and_matchMask h) (hasOperandsOf_encodeWord i)

/-- A word of the table that is the word of a well-formed instruction decodes to it. -/
theorem decodeTableWord_of_encodeWord {i : Instr} {nbits w : Nat} (hwf : i.wellFormed = true)
    (hw : tableWord nbits w = encodeWord i) : decodeTableWord nbits w = some i := by
  have hbytes := decodeBytes_bytesOfWord (encodeWord i) []
  rw [decodeWord_encodeWord hwf, List.append_nil] at hbytes
  rw [decodeTableWord, hw, hbytes]

/-- Four bytes that make a word of an instruction decode to it. -/
theorem decodeBytes_of_word {b0 b1 b2 b3 : Byte} {i : Instr} (h : decodeWord (b3 ++ b2 ++ b1 ++ b0) = .ok i) :
    decodeBytes [b0, b1, b2, b3] = .ok (i, []) := by
  simp only [decodeBytes, wordOfBytes, h]

/-- Four bytes that make no word of an instruction answer the word's error. -/
theorem decodeBytes_of_word_error {b0 b1 b2 b3 : Byte} {e : DecodeError}
    (h : decodeWord (b3 ++ b2 ++ b1 ++ b0) = .error e) : decodeBytes [b0, b1, b2, b3] = .error e := by
  simp only [decodeBytes, wordOfBytes, h]

/-! ### What the decoder refuses -/

/-- A word that is no row's match value under the mask is refused by name (30_encoding.md R57). -/
theorem decodeWord_of_no_match {w : InsnWord}
    (h : w &&& matchMask ∉
      [0x3ac01073#32, 0x3ac02073#32, 0x3ac03073#32, 0x3ac05073#32, 0x3ac06073#32, 0x3ac07073#32]) :
    decodeWord w = .error (.notAnAccessToPmpcfg12 w) := by
  simp only [List.mem_cons, List.not_mem_nil, or_false, not_or] at h
  obtain ⟨h1, h2, h3, h5, h6, h7⟩ := h
  simp only [decodeWord, h1, h2, h3, h5, h6, h7, if_false]

/-- A word with another opcode or another CSR address is no row's match value under the mask. -/
theorem no_match_of_fields {w : InsnWord} (h : ¬(opcodeField w = 0b1110011#7 ∧ csrField w = 0x3ac#12)) :
    w &&& matchMask ∉
      [0x3ac01073#32, 0x3ac02073#32, 0x3ac03073#32, 0x3ac05073#32, 0x3ac06073#32, 0x3ac07073#32] := by
  have hrow (funct3 : BitVec 3) : w &&& matchMask ≠ encodeFields 0x3ac#12 0#5 funct3 0 := fun hmatch => by
    obtain ⟨hopcode, hcsr, _⟩ := (and_matchMask_eq_iff w _ funct3).1 hmatch
    exact h ⟨hopcode, hcsr⟩
  simp only [List.mem_cons, List.not_mem_nil, or_false, not_or]
  exact ⟨hrow 0b001, hrow 0b010, hrow 0b011, hrow 0b101, hrow 0b110, hrow 0b111⟩

/-! ### The obligations -/

/-- Settles O1: decoding the bytes of a word decodes the word, and the word of an instruction has its row's match value
and its operands. -/
theorem decodeOfEncodeIsIdentity : Obligations.DecodeOfEncodeIsIdentity := by
  intro i rest hwf
  rw [encode, decodeBytes_bytesOfWord, decodeWord_encodeWord hwf]

/-- Settles O2: the match value fixes the opcode, the CSR address and `funct3`, and with the operands these are all
fields of the word. -/
theorem encodeOfDecodeIsIdentity : Obligations.EncodeOfDecodeIsIdentity := by
  intro w i h
  obtain ⟨hrow, hrd, hcsr, hsrc⟩ := match_of_decodeWord h
  rw [← encodeFields_eq_matchValue] at hrow
  obtain ⟨hopcode, haddress, hfunct3⟩ := (and_matchMask_eq_iff w _ _).1 hrow
  refine ⟨Machine.wellFormed_iff_csr.2 (hcsr.symm.trans haddress), ?_⟩
  rw [encodeWord_eq_encodeFields, ← hrd, ← hcsr, ← hsrc, ← hfunct3]
  exact encodeFields_of_fields hopcode

/-- Settles O3: with the opcode and the CSR address given, each row's match value says what `funct3` is; without them
no row matches. -/
theorem decoderSelectsByOpcodeCsrAndFunct3 : Obligations.DecoderSelectsByOpcodeCsrAndFunct3 := by
  refine fun w => ⟨fun ⟨hopcode, hcsr⟩ => ?_, fun h => decodeWord_of_no_match (no_match_of_fields h)⟩
  have hrow (funct3 : BitVec 3) :
      w &&& matchMask = encodeFields 0x3ac#12 0#5 funct3 0 ↔ w.extractLsb' 12 3 = funct3 :=
    (and_matchMask_eq_iff w _ funct3).trans ⟨fun ⟨_, _, h⟩ => h, fun h => ⟨hopcode, hcsr, h⟩⟩
  have h1 : w &&& matchMask = 0x3ac01073#32 ↔ _ := hrow 0b001#3
  have h2 : w &&& matchMask = 0x3ac02073#32 ↔ _ := hrow 0b010#3
  have h3 : w &&& matchMask = 0x3ac03073#32 ↔ _ := hrow 0b011#3
  have h5 : w &&& matchMask = 0x3ac05073#32 ↔ _ := hrow 0b101#3
  have h6 : w &&& matchMask = 0x3ac06073#32 ↔ _ := hrow 0b110#3
  have h7 : w &&& matchMask = 0x3ac07073#32 ↔ _ := hrow 0b111#3
  have hcsr' : csrField w = 0x3ac#12 := hcsr
  simp only [decodeWord, h1, h2, h3, h5, h6, h7, hcsr']
  rfl

/-- Settles O4: each listed word is the word of its instruction. -/
theorem listedWordsDecode : Obligations.ListedWordsDecode :=
  ⟨decodeTableWord_of_encodeWord rfl rfl, decodeTableWord_of_encodeWord rfl rfl, decodeTableWord_of_encodeWord rfl rfl,
    decodeTableWord_of_encodeWord rfl rfl, decodeTableWord_of_encodeWord rfl rfl, decodeTableWord_of_encodeWord rfl rfl⟩

end Sys2Proof
end

section
/-!
PROOFS. The statements of 30_encoding.md on the machine: the step runs the word that is fetched (R51, R57), a CSR operand
other than `pmpcfg12` is refused (R50, R55), the immediates are zero-extended (R52), and the pseudo-instructions (R56).
-/

namespace Sys2Proof.Machine

/-! ### The six instructions as one read-modify-write -/

/-- Whether an instruction reads the CSR: the write forms only into a destination (40_csr_access.md R65). -/
def readsCsr : Instr → Bool
  | .csrrw rd _ _ | .csrrwi rd _ _ => decide (rd ≠ 0)
  | .csrrs _ _ _ | .csrrc _ _ _ | .csrrsi _ _ _ | .csrrci _ _ _ => true

/-- The value an instruction attempts to write, from the value read: the set and clear forms attempt none for `x0` or
an immediate of 0 (40_csr_access.md R65). -/
def attemptedWrite (l : Len) (s : State) : Instr → Option (BitVec l.bits → BitVec l.bits)
  | .csrrw _ _ rs1 => some (replaceBits (registerOperand l rs1 s))
  | .csrrs _ _ rs1 => if rs1 = 0 then none else some (setBits (registerOperand l rs1 s))
  | .csrrc _ _ rs1 => if rs1 = 0 then none else some (clearBits (registerOperand l rs1 s))
  | .csrrwi _ _ uimm => some (replaceBits (immediateOperand l uimm))
  | .csrrsi _ _ uimm => if uimm = 0 then none else some (setBits (immediateOperand l uimm))
  | .csrrci _ _ uimm => if uimm = 0 then none else some (clearBits (immediateOperand l uimm))

/-- Every instruction is an access with this effect. -/
theorem exec_eq_access_readModifyWrite (i : Instr) (s : State) :
    exec i s = access i (fun l s => readModifyWrite l i.rd (readsCsr i) (attemptedWrite l s i) s) s := by
  cases i <;> rfl

/-- An instruction on `pmpcfg12` in mode M completes. -/
theorem exec_in_M {i : Instr} {s : State} {l : Len} (hc : i.csr = Config.pmpcfg12Address) (hl : lenOf s.mxl = some l)
    (hm : s.mode = .M) :
    exec i s = .next (readModifyWrite l i.rd (readsCsr i) (attemptedWrite l s i) s) := by
  rw [exec_eq_access_readModifyWrite, access_in_M hc hl hm]

/-- An access to another CSR is refused, whatever the length and the mode are. -/
theorem access_other_csr {i : Instr} (effect : Len → State → State) (s : State)
    (hc : i.csr ≠ Config.pmpcfg12Address) : access i effect s = .refused (.otherCsr i.csr) :=
  if_neg hc

/-! ### The hart's instruction -/

/-- The hart runs the instruction that the fetched bytes decode to. -/
theorem runInstruction_of_decode {l : Len} {s : State} {bytes rest : List Byte} {i : Instr} (ht : s.trap = none)
    (hl : lenOf s.mxl = some l) (hfetch : fetchBytes l s = .ok bytes) (hdecode : decodeBytes bytes = .ok (i, rest)) :
    runInstruction s = exec i s := by
  simp only [runInstruction, ht, hl, hfetch, hdecode]

/-- The hart refuses fetched bytes that do not decode. -/
theorem runInstruction_of_decode_error {l : Len} {s : State} {bytes : List Byte} {e : DecodeError} (ht : s.trap = none)
    (hl : lenOf s.mxl = some l) (hfetch : fetchBytes l s = .ok bytes) (hdecode : decodeBytes bytes = .error e) :
    runInstruction s = .refused (.undecodable e) := by
  simp only [runInstruction, ht, hl, hfetch, hdecode]

/-! ### A placed word -/

/-- The four bytes of an instruction have four addresses, also where they wrap modulo `2^len()`. -/
theorem codeAddress_inj (l : Len) (s : State) {m n : Nat} (hm : m < 4) (hn : n < 4) :
    codeAddress l s m = codeAddress l s n ↔ m = n := by
  have hsmall : 4 ≤ 2 ^ l.bits := by cases l <;> decide
  constructor
  · intro h
    have hofNat : BitVec.ofNat l.bits m = BitVec.ofNat l.bits n :=
      (BitVec.add_right_inj (pcOf l s)).1 (BitVec.eq_of_toNat_eq h)
    have htoNat := congrArg BitVec.toNat hofNat
    simpa only [BitVec.toNat_ofNat, Nat.mod_eq_of_lt (hm.trans_le hsmall), Nat.mod_eq_of_lt (hn.trans_le hsmall)]
      using htoNat
  · rintro rfl
    rfl

/-- Each byte of a word stored where the hart fetches is read back: a later byte does not overwrite an earlier one. -/
theorem read_storeWordAtPc (l : Len) (w : InsnWord) (s : State) (n : Fin 4) :
    Memory.read (storeWordAtPc l w s).mem (codeAddress l s n.val) = some (w.extractLsb' (8 * n.val) 8) := by
  have hinj (m : Nat) (hm : m < 4) := codeAddress_inj l s n.isLt hm
  simp only [storeWordAtPc, Memory.read_write, hinj 0 (by decide), hinj 1 (by decide), hinj 2 (by decide),
    hinj 3 (by decide)]
  fin_cases n <;> rfl

/-- A word stored where the hart fetches is what it fetches. -/
theorem fetchBytes_storeWordAtPc (l : Len) (w : InsnWord) (s : State) :
    fetchBytes l (storeWordAtPc l w s) = .ok (bytesOfWord w) :=
  fetchBytes_ok (s := storeWordAtPc l w s) (read_storeWordAtPc l w s)

/-- Letting the hart run changes nothing that a fetch looks at. -/
theorem fetchBytes_congr {l : Len} {s t : State} (hmem : t.mem = s.mem) (hpc : t.pc = s.pc) :
    fetchBytes l t = fetchBytes l s := by
  simp only [fetchBytes, fetchByte, codeAddress, pcOf, hmem, hpc]

/-- The hart runs next, and the inputs that waited wait behind it. -/
theorem hartNext_hartRunsNext (s : State) :
    hartNext (hartRunsNext s) = true ∧ hartState (hartRunsNext s) = { s with trap := none } := by
  obtain ⟨params, pmpcfg12, mxl, mode, x, pc, mem, trap, inputs, observed⟩ := s
  cases inputs <;> exact ⟨rfl, rfl⟩

/-- What placing a word does where there is a length. -/
theorem withFetchWord_of_len {s : State} {l : Len} (hl : lenOf s.mxl = some l) (nbits w : Nat) :
    s.withFetchWord nbits w = hartRunsNext (storeWordAtPc l (tableWord nbits w) s) := by
  simp only [State.withFetchWord, hl]

/-- A word that the table's decoder accepts is accepted as bytes. -/
theorem decodeBytes_of_decodeTableWord {nbits w : Nat} {i : Instr} (h : decodeTableWord nbits w = some i) :
    ∃ rest, decodeBytes (bytesOfWord (tableWord nbits w)) = .ok (i, rest) := by
  unfold decodeTableWord at h
  split at h
  · rename_i j rest hdecode
    cases h
    exact ⟨rest, hdecode⟩
  · cases h

/-! ### Software writes that leave the high bits alone -/

/-- From bit 5 up, where no immediate has bits, the value agrees with what a read of the register returns. -/
def KeepsHighBits {l : Len} (S : Word64) (v : BitVec l.bits) : Prop :=
  ∀ n, 5 ≤ n → v.getLsbD n = (swRead l S).getLsbD n

theorem immediateOperand_getLsbD_high (l : Len) (uimm : Uimm) {n : Nat} (hn : 5 ≤ n) :
    (immediateOperand l uimm).getLsbD n = false := by
  rw [immediateOperand, BitVec.getLsbD_setWidth, BitVec.getLsbD_of_ge uimm n hn, Bool.and_false]

theorem keepsHighBits_setBits (l : Len) (uimm : Uimm) (S : Word64) :
    KeepsHighBits S (setBits (immediateOperand l uimm) (swRead l S)) := fun n hn => by
  rw [setBits, BitVec.getLsbD_or, immediateOperand_getLsbD_high l uimm hn, Bool.or_false]

theorem keepsHighBits_clearBits (l : Len) (uimm : Uimm) (S : Word64) :
    KeepsHighBits S (clearBits (immediateOperand l uimm) (swRead l S)) := fun n hn => by
  rw [clearBits, BitVec.getLsbD_and, BitVec.getLsbD_not, immediateOperand_getLsbD_high l uimm hn, Bool.not_false,
    Bool.and_true]
  by_cases hin : n < l.bits
  · rw [decide_eq_true hin, Bool.and_true]
  · rw [BitVec.getLsbD_of_ge _ n (by omega), Bool.false_and]

/-- The two registers differ at most in bits 4:0 of the lowest field. -/
def SameHighBits (S T : Word64) : Prop :=
  ∀ (k : Fin 8) (j : Nat), j < 8 → 5 ≤ 8 * k.val + j → (cfg T k).getLsbD j = (cfg S k).getLsbD j

/-- Bits 6:5 of a legal field are 0, so clearing them changes nothing (R22). -/
theorem and_mask_of_legalField {p : Params} {k : Fin 8} {c : Byte} (h : legalField p k c = true) : c &&& 0x9f#8 = c := by
  obtain ⟨hzero, _⟩ := legalField_masks h
  have hmask : 0x9f#8 = ~~~0x60#8 := by decide
  ext j hj
  have hbit := congrArg (·.getLsbD j) hzero
  simp only [BitVec.getLsbD_and, BitVec.getLsbD_zero, Bool.and_eq_false_iff] at hbit
  simp only [hmask, ← BitVec.getLsbD_eq_getElem, BitVec.getLsbD_and, BitVec.getLsbD_not, hj, decide_true, Bool.true_and]
  rcases hbit with hbit | hbit <;> simp [hbit]

/-- A software write of a value that keeps the high bits of a legal register keeps them in the register. -/
theorem sameHighBits_swWrite {p : Params} {l : Len} {v : BitVec l.bits} {S : Word64} (hlegal : LegalRegister p S)
    (hv : KeepsHighBits S v) : SameHighBits S (swWrite p l v S) := by
  intro k j hj hn
  rw [cfg_swWrite]
  obtain hold | ⟨hnew, _, hin, _⟩ := writeField_cases p l k (cfg S k) (cfg (v.setWidth 64) k)
  · rw [hold]
  · have hinside : 8 * k.val + j < l.bits := by
      have := of_decide_eq_false hin
      omega
    have hvalue : (cfg (v.setWidth 64) k).getLsbD j = (cfg S k).getLsbD j := by
      have h64 : 8 * k.val + j < 64 := by omega
      rw [cfg_getLsbD, cfg_getLsbD, BitVec.getLsbD_setWidth, hv _ hn, swRead, BitVec.getLsbD_setWidth,
        decide_eq_true hinside, decide_eq_true h64, Bool.true_and, Bool.true_and]
    calc (writeField p l k (cfg S k) (cfg (v.setWidth 64) k)).getLsbD j
        = (cfg (v.setWidth 64) k &&& 0x9f#8).getLsbD j := by rw [hnew]
      _ = (cfg S k &&& 0x9f#8).getLsbD j := by rw [BitVec.getLsbD_and, hvalue, BitVec.getLsbD_and]
      _ = (cfg S k).getLsbD j := by rw [and_mask_of_legalField (hlegal k)]

/-- A read-modify-write whose value, if it writes one, keeps the high bits of a legal register. -/
theorem sameHighBits_readModifyWrite {l : Len} (rd : Reg) (reads : Bool)
    {written : Option (BitVec l.bits → BitVec l.bits)} {s : State} (hlegal : LegalRegister s.params s.pmpcfg12)
    (hw : ∀ f ∈ written, KeepsHighBits s.pmpcfg12 (f (swRead l s.pmpcfg12))) :
    SameHighBits s.pmpcfg12 (readModifyWrite l rd reads written s).pmpcfg12 := by
  rw [readModifyWrite_pmpcfg12]
  cases written with
  | none => exact fun _ _ _ _ => rfl
  | some f => exact sameHighBits_swWrite hlegal (hw f rfl)

/-- What the set and clear immediate forms attempt to write keeps the high bits of the register. -/
theorem keepsHighBits_attemptedWrite {i : Instr} {rd : Reg} {uimm : Uimm}
    (hi : i = .csrrsi rd 0x3ac#12 uimm ∨ i = .csrrci rd 0x3ac#12 uimm) (l : Len) (s : State) :
    ∀ f ∈ attemptedWrite l s i, KeepsHighBits s.pmpcfg12 (f (swRead l s.pmpcfg12)) := by
  intro f hf
  obtain rfl | rfl := hi
  · obtain ⟨_, rfl⟩ : uimm ≠ 0 ∧ setBits (immediateOperand l uimm) = f := by simpa [attemptedWrite] using hf
    exact keepsHighBits_setBits l uimm s.pmpcfg12
  · obtain ⟨_, rfl⟩ : uimm ≠ 0 ∧ clearBits (immediateOperand l uimm) = f := by simpa [attemptedWrite] using hf
    exact keepsHighBits_clearBits l uimm s.pmpcfg12

/-- An instruction whose attempted write keeps the high bits of a legal register keeps them, also where it raises. -/
theorem sameHighBits_of_exec {i : Instr} {s t : State} (hlegal : LegalRegister s.params s.pmpcfg12)
    (hw : ∀ l, ∀ f ∈ attemptedWrite l s i, KeepsHighBits s.pmpcfg12 (f (swRead l s.pmpcfg12)))
    (h : exec i s = .next t) : SameHighBits s.pmpcfg12 t.pmpcfg12 := by
  rw [exec_eq_access_readModifyWrite] at h
  obtain ⟨_, l, _, ⟨_, rfl⟩ | ⟨_, rfl⟩⟩ := access_next h
  · exact sameHighBits_readModifyWrite i.rd (readsCsr i) hlegal (hw l)
  · exact fun _ _ _ _ => rfl

/-- No field but the lowest holds a bit of an immediate. -/
theorem cfg_immediateOperand (l : Len) (uimm : Uimm) {k : Fin 8} (hk : k ≠ 0) :
    cfg ((immediateOperand l uimm).setWidth 64) k = 0#8 := by
  apply BitVec.eq_of_getLsbD_eq
  intro j hj
  have hhigh : 5 ≤ 8 * k.val + j := by
    have := Fin.pos_iff_ne_zero.2 hk
    omega
  rw [cfg_getLsbD, BitVec.getLsbD_setWidth, immediateOperand_getLsbD_high l uimm hhigh, Bool.and_false, Bool.and_false,
    BitVec.getLsbD_zero]

/-! ### An instruction that completes -/

/-- What a read-modify-write leaves, as the result of an instruction. -/
theorem csrResult_readModifyWrite (l : Len) (rd : Reg) (reads : Bool)
    (written : Option (BitVec l.bits → BitVec l.bits)) (s : State) :
    CsrResult l rd reads (written.map fun f => f (swRead l s.pmpcfg12)) s (readModifyWrite l rd reads written s) := by
  refine ⟨fun k => ?fields, fun r => ?registers, readModifyWrite_pc l rd reads written s, ?observed,
    readModifyWrite_surroundings l rd reads written s⟩
  case fields =>
    rw [readModifyWrite_pmpcfg12]
    cases written with
    | none => rfl
    | some f => exact cfg_swWrite ..
  case registers =>
    have hread (m : Len) := readModifyWrite_readX l rd reads written s m r
    split
    · rename_i h
      obtain ⟨hr, hrd, hreads⟩ := h
      rw [hread, if_pos ⟨hreads, hr, hrd⟩, setWidth_through_storage]
    · rename_i h
      rw [SameX, hread, if_neg fun ⟨hreads, hr, hrd⟩ => h ⟨hr, hrd, hreads⟩]
  case observed =>
    rw [readModifyWrite_observed]
    cases written <;> rfl

/-- An instruction on `pmpcfg12` in mode M completes with the result of its own read and attempted write. -/
theorem exec_completes {i : Instr} {s : State} {l : Len} {rd : Reg} {reads : Bool} {value : Option (BitVec l.bits)}
    (hc : i.csr = Config.pmpcfg12Address) (hl : lenOf s.mxl = some l) (hm : s.mode = .M) (hrd : i.rd = rd)
    (hreads : readsCsr i = reads) (hvalue : ((attemptedWrite l s i).map fun f => f (swRead l s.pmpcfg12)) = value) :
    ∃ t, exec i s = .next t ∧ CsrResult l rd reads value s t := by
  subst hrd hreads hvalue
  exact ⟨_, exec_in_M hc hl hm, csrResult_readModifyWrite l i.rd (readsCsr i) (attemptedWrite l s i) s⟩

/-- The value written by a form that writes nothing for one operand. -/
theorem written_unless {n : Nat} (c : Prop) [Decidable c] (f : BitVec n → BitVec n) (t : BitVec n) :
    ((if c then none else some f).map fun g => g t) = if c then none else some (f t) := by
  split <;> rfl

/-- An immediate is zero-extended (30_encoding.md R52). -/
theorem immediateOperand_eq_ofNat (l : Len) (uimm : Uimm) : immediateOperand l uimm = BitVec.ofNat l.bits uimm.toNat :=
  (BitVec.ofNat_toNat l.bits uimm).symm

/-! ### The obligations -/

/-- Settles O8: the four bytes stored have four addresses, so they are fetched as they were stored. -/
theorem placedWordRunsNext : Obligations.PlacedWordRunsNext := by
  intro s l nbits w i hl hdecode
  obtain ⟨rest, hbytes⟩ := decodeBytes_of_decodeTableWord hdecode
  rw [withFetchWord_of_len hl]
  obtain ⟨hnext, hstate⟩ := hartNext_hartRunsNext (storeWordAtPc l (tableWord nbits w) s)
  have hfetch : fetchBytes l { storeWordAtPc l (tableWord nbits w) s with trap := none } =
      .ok (bytesOfWord (tableWord nbits w)) :=
    (fetchBytes_congr rfl rfl).trans (fetchBytes_storeWordAtPc l (tableWord nbits w) s)
  rw [step_of_hartNext hnext, hstate]
  exact runInstruction_of_decode rfl hl hfetch hbytes

/-- Settles O44: the value written agrees with the value read from bit 5 up, and writing a legal field's own bits back
changes none of them. -/
theorem setClearImmediatesReachOnlyLowBits : Obligations.SetClearImmediatesReachOnlyLowBits := by
  intro i rd uimm s t hi hlegal h
  have hsame := sameHighBits_of_exec hlegal (keepsHighBits_attemptedWrite hi · s) h
  refine ⟨fun k hk => ?_, ?_⟩
  · refine BitVec.eq_of_getLsbD_eq fun j hj => hsame k j hj ?_
    have := Fin.pos_iff_ne_zero.2 hk
    omega
  · have hmask : 0xe0#8 = 7#8 <<< 5 := by decide
    apply BitVec.eq_of_getLsbD_eq
    intro j hj
    rw [BitVec.getLsbD_and, BitVec.getLsbD_and]
    by_cases hlow : j < 5
    · simp only [hmask, BitVec.getLsbD_shiftLeft, hlow, decide_true, Bool.not_true, Bool.false_and, Bool.and_false]
    · rw [hsame 0 j hj (by omega)]

/-- Settles O45: the slice of the immediate is 0 in every field but the lowest, and 0 passes every test. -/
theorem writeImmediateClearsTheOtherFields : Obligations.WriteImmediateClearsTheOtherFields := by
  intro l rd uimm s k hl hm hk hnum hin hunlocked
  refine ⟨_, exec_in_M rfl hl hm, ?_⟩
  have hro : isReadOnly s.params k = false := decide_eq_false (by omega)
  have hbeyond : isBeyond l k = false := decide_eq_false (by omega)
  have hlock : lockBit (cfg s.pmpcfg12 k) = false :=
    Bool.eq_false_iff.2 fun hbit => (getLsbD_iff_and_twoPow _ (by decide)).1 hbit hunlocked
  have hna4 : invalidNa4 s.params 0#8 = false := by simp [invalidNa4, addressModeBits]
  rw [readModifyWrite_pmpcfg12]
  simp only [attemptedWrite, replaceBits, cfg_swWrite]
  rw [cfg_immediateOperand l uimm hk, writeField_of_tests hro hbeyond hlock rfl hna4]
  rfl

/-- Settles O5: the bytes are fetched, and decoded as their word is. -/
theorem stepRunsTheDecodedInstruction : Obligations.StepRunsTheDecodedInstruction := by
  intro s l b i hn ht hl hmem hdecode
  have hfetch : fetchBytes l (hartState s) = .ok [b 0, b 1, b 2, b 3] := fetchBytes_ok (s := hartState s) hmem
  rw [step_of_hartNext hn]
  exact runInstruction_of_decode ht hl hfetch (decodeBytes_of_word hdecode)

/-- Settles O6: the bytes are fetched, and their word is refused as no row's match value. -/
theorem stepRefusesOtherWords : Obligations.StepRefusesOtherWords := by
  intro s l b hn ht hl hmem hno
  have hfetch : fetchBytes l (hartState s) = .ok [b 0, b 1, b 2, b 3] := fetchBytes_ok (s := hartState s) hmem
  rw [step_of_hartNext hn]
  exact runInstruction_of_decode_error ht hl hfetch (decodeBytes_of_word_error (decodeWord_of_no_match hno))

/-- Settles O42: every instruction is an access, which asks for its CSR first. -/
theorem accessToAnotherCsrIsRefused : Obligations.AccessToAnotherCsrIsRefused := by
  intro i s hc
  rw [exec_eq_access_readModifyWrite]
  exact access_other_csr _ s hc

/-- Settles O46: each expansion is an access in mode M; what differs is whether it reads and the value it writes. -/
theorem pseudoInstructionsReadOrWrite : Obligations.PseudoInstructionsReadOrWrite := by
  intro l r uimm s hl hm
  rw [← immediateOperand_eq_ofNat]
  have hwritten {c : Prop} [Decidable c] (f : BitVec l.bits → BitVec l.bits) :=
    written_unless c f (swRead l s.pmpcfg12)
  exact ⟨exec_completes rfl hl hm rfl rfl rfl, exec_completes rfl hl hm rfl rfl rfl,
    exec_completes rfl hl hm rfl rfl rfl, exec_completes rfl hl hm rfl rfl (hwritten _),
    exec_completes rfl hl hm rfl rfl (hwritten _), exec_completes rfl hl hm rfl rfl (hwritten _),
    exec_completes rfl hl hm rfl rfl (hwritten _)⟩

end Sys2Proof.Machine
end

section
/-!
PROOFS. The statements of 40_csr_access.md: the software read and write and the write function (R60 to R62, R74), the
six instructions in mode M (R65 to R71), the write back (R72), and the locked fields along a run (R73).
-/

namespace Sys2Proof.Machine

/-! ### Locked fields -/

/-- The lock test is the source's mask 0x80 (R62, test 1). -/
theorem lockBit_eq_true_iff (c : Byte) : lockBit c = true ↔ c &&& 0x80#8 ≠ 0#8 :=
  getLsbD_iff_and_twoPow c (by decide)

/-- A step that is no reset event keeps a locked field: all that can reach the register is a software write. -/
theorem step_keeps_locked {s t : State} {k : Fin 8} (hreset : resetNext s = false) (h : step s = .next t)
    (hlock : lockBit (cfg s.pmpcfg12 k) = true) : cfg t.pmpcfg12 k = cfg s.pmpcfg12 k := by
  obtain hkeep | ⟨hisReset, _⟩ | ⟨_, _, l, v, _, hwrite, _⟩ := step_pmpcfg12 h
  · rw [hkeep]
  · simp [hreset] at hisReset
  · rw [hwrite, cfg_swWrite, writeField_locked _ hlock]

/-- A run without a reset event keeps a locked field, which so stays locked from step to step. -/
theorem runsWithoutReset_keeps_locked {s t : State} {k : Fin 8} (h : RunsWithoutReset s t)
    (hlock : lockBit (cfg s.pmpcfg12 k) = true) : cfg t.pmpcfg12 k = cfg s.pmpcfg12 k := by
  induction h with
  | refl => rfl
  | tail _ hreset hstep ih =>
    have hlock' := (congrArg lockBit ih).trans hlock
    exact (step_keeps_locked hreset hstep hlock').trans ih

/-! ### The write function -/

/-- A single bit is set where its mask finds it. -/
theorem getLsbD_iff_and_twoPow_eq (c : Byte) {i : Nat} (hi : i < 8) :
    c.getLsbD i = true ↔ c &&& BitVec.twoPow 8 i = BitVec.twoPow 8 i := by
  refine ⟨fun hbit => by rw [BitVec.and_twoPow, if_pos hbit], fun hmask => ?_⟩
  simpa [hi] using congrArg (·.getLsbD i) hmask

/-- The permission test in the source's masks 0x01 and 0x02 (R62, test 2). -/
theorem reservedPermissions_iff_masks (c : Byte) :
    reservedPermissions c = true ↔ c &&& 0x01#8 = 0#8 ∧ c &&& 0x02#8 = 0x02#8 := by
  have hR : c.getLsbD 0 = true ↔ c &&& 0x01#8 ≠ 0#8 := getLsbD_iff_and_twoPow c (by decide)
  have hW : c.getLsbD 1 = true ↔ c &&& 0x02#8 = 0x02#8 := getLsbD_iff_and_twoPow_eq c (by decide)
  rw [reservedPermissions_eq_true_iff, hW, ← Bool.not_eq_true, hR, not_ne_iff]

/-- `A` is NA4 in the source's mask 0x18. -/
theorem addressModeBits_eq_na4_iff (c : Byte) : addressModeBits c = 2#2 ↔ c &&& 0x18#8 = 0x10#8 := by
  obtain ⟨_, _, hna4, _⟩ := addressModeOf_eq_iff_and_mask c
  rw [← hna4]
  generalize addressModeBits c = a
  revert a
  decide

/-- The NA4 test in the source's mask 0x18 (R62, test 3). -/
theorem invalidNa4_eq_false_iff (p : Params) (c : Byte) :
    invalidNa4 p c = false ↔ p.pmpGranularity < 2 ∨ c &&& 0x18#8 ≠ 0x10#8 := by
  rw [← Bool.not_eq_true, invalidNa4_eq_true_iff, addressModeBits_eq_na4_iff, not_and_or, not_le]

/-- The write function stores where every test is passed and nowhere else. -/
theorem writeField_eq_ite (p : Params) (l : Len) (k : Fin 8) (old new : Byte) :
    writeField p l k old new =
      if isReadOnly p k = false ∧ isBeyond l k = false ∧ lockBit old = false ∧ reservedPermissions new = false ∧
          invalidNa4 p new = false
      then new &&& 0x9f#8
      else old := by
  split
  case isTrue h =>
    obtain ⟨hro, hin, hlock, hperm, hna4⟩ := h
    exact writeField_of_tests hro hin hlock hperm hna4
  case isFalse h =>
    exact (writeField_cases p l k old new).resolve_right fun ⟨_, htests⟩ => h htests

/-- A second write of the same byte finds the field locked, or passes the same tests, or is rejected again. -/
theorem writeField_idem (p : Params) (l : Len) (k : Fin 8) (old new : Byte) :
    writeField p l k (writeField p l k old new) new = writeField p l k old new := by
  obtain hold | ⟨hnew, _⟩ := writeField_cases p l k old new
  · rw [hold, hold]
  · rw [hnew]
    obtain hagain | ⟨hagain, _⟩ := writeField_cases p l k (new &&& 0x9f#8) new <;> exact hagain

/-- Writing a legal field to itself keeps it: bits 6:5, which a write clears, are 0 in it. -/
theorem writeField_self {p : Params} {k : Fin 8} {c : Byte} (h : legalField p k c = true) (l : Len) :
    writeField p l k c c = c := by
  obtain hold | ⟨hnew, _⟩ := writeField_cases p l k c c
  · exact hold
  · rw [hnew, and_mask_of_legalField h]

/-! ### The software read and write -/

/-- A field inside the register has all its bits in the low `len()` bits. -/
theorem cfg_setWidth_inside {l : Len} {k : Fin 8} (hin : isBeyond l k = false) (v : Word64) :
    cfg ((v.setWidth l.bits).setWidth 64) k = cfg v k := by
  have hbits : ¬ l.bits ≤ 8 * k.val + 7 := of_decide_eq_false hin
  apply BitVec.eq_of_getLsbD_eq
  intro j hj
  have hlen : 8 * k.val + j < l.bits := by omega
  have h64 : 8 * k.val + j < 64 := by omega
  simp only [cfg_getLsbD, BitVec.getLsbD_setWidth, hlen, h64, decide_true, Bool.true_and]

/-- A software write makes each field from its slice of any 64 bits that extend the value: a field that reaches past
the value is not written (R61). -/
theorem cfg_swWrite_setWidth (p : Params) (l : Len) (v S : Word64) (k : Fin 8) :
    cfg (swWrite p l (v.setWidth l.bits) S) k = writeField p l k (cfg S k) (cfg v k) := by
  rw [cfg_swWrite]
  cases hin : isBeyond l k with
  | true => rw [writeField_beyond _ _ hin, writeField_beyond _ _ hin]
  | false => rw [cfg_setWidth_inside hin]

/-- The register is made of its fields. -/
theorem ofFields_cfg (S : Word64) : ofFields (cfg S) = S :=
  register_ext fun k => cfg_ofFields (cfg S) k

/-- The lower half of the register is its fields 0 to 3. -/
theorem extractLsb'_lowerHalf (S : Word64) : S.extractLsb' 0 32 = cfg S 3 ++ cfg S 2 ++ cfg S 1 ++ cfg S 0 := by
  have h32 : cfg S 3 ++ cfg S 2 = S.extractLsb' 16 16 := BitVec.extractLsb'_append_extractLsb'_eq_extractLsb' rfl
  have h31 : S.extractLsb' 16 16 ++ cfg S 1 = S.extractLsb' 8 24 :=
    BitVec.extractLsb'_append_extractLsb'_eq_extractLsb' rfl
  have h30 : S.extractLsb' 8 24 ++ cfg S 0 = S.extractLsb' 0 32 :=
    BitVec.extractLsb'_append_extractLsb'_eq_extractLsb' rfl
  rw [h32, h31, h30]

/-! ### The obligations -/

/-- Settles O13, by induction over the run (`runsWithoutReset_keeps_locked`). -/
theorem lockedFieldIsConstantUntilReset : Obligations.LockedFieldIsConstantUntilReset := by
  intro s t k hrun hmask
  exact runsWithoutReset_keeps_locked hrun ((lockBit_eq_true_iff _).2 hmask)

/-- Settles O18: the five tests, each in the source's own terms. -/
theorem writeFieldFollowsTheSourceMasks : Obligations.WriteFieldFollowsTheSourceMasks := by
  intro p l k old new
  have hro : isReadOnly p k = false ↔ p.numPmpEntries > 48 + k.val := decide_eq_false_iff_not.trans not_le
  have hin : isBeyond l k = false ↔ 8 * k.val + 7 < l.bits := decide_eq_false_iff_not.trans not_le
  have hlock : lockBit old = false ↔ old &&& 0x80#8 = 0#8 := by
    rw [← Bool.not_eq_true, lockBit_eq_true_iff, not_ne_iff]
  have hperm : reservedPermissions new = false ↔ ¬(new &&& 0x01#8 = 0#8 ∧ new &&& 0x02#8 = 0x02#8) := by
    rw [← Bool.not_eq_true, reservedPermissions_iff_masks]
  simp only [writeField_eq_ite, hro, hin, hlock, hperm, invalidNa4_eq_false_iff]

/-- Settles O19: the slice of the value is the slice of its extension, except where no write reaches. -/
theorem softwareWriteIsFieldByField : Obligations.SoftwareWriteIsFieldByField := by
  rintro p l _ v S k rfl
  exact cfg_swWrite_setWidth p l v S k

/-- Settles O20: all eight fields are the register, and the four lowest its lower half. -/
theorem softwareReadIsTheFields : Obligations.SoftwareReadIsTheFields := by
  intro S
  obtain ⟨_, _, _, _, hread⟩ := lengthFollowsMxl
  obtain ⟨hread32, hread64⟩ := hread S
  exact ⟨hread64.trans (ofFields_cfg S).symm, hread32.trans (extractLsb'_lowerHalf S)⟩

/-- Settles O28: the value read extends to the register itself, so each field is written to itself. -/
theorem writeBackChangesNothing : Obligations.WriteBackChangesNothing := by
  intro p l S hlegal
  refine register_ext fun k => ?_
  calc cfg (swWrite p l (swRead l S) S) k
      = writeField p l k (cfg S k) (cfg S k) := cfg_swWrite_setWidth p l S S k
    _ = cfg S k := writeField_self (hlegal k) l

/-- Settles O30: the write function is idempotent in every field. -/
theorem secondIdenticalWriteChangesNothing : Obligations.SecondIdenticalWriteChangesNothing := by
  intro p l v S
  refine register_ext fun k => ?_
  simp only [cfg_swWrite, writeField_idem]

/-- Settles O34: the value written is the source register. -/
theorem csrrwReadsAndWrites : Obligations.CsrrwReadsAndWrites := by
  intro l rd rs1 s hl hm
  exact exec_completes rfl hl hm rfl rfl rfl

/-- Settles O35: the value written is the value read with the bits of the source register, unless that is `x0`. -/
theorem csrrsReadsAndSets : Obligations.CsrrsReadsAndSets := by
  intro l rd rs1 s hl hm
  exact exec_completes rfl hl hm rfl rfl (written_unless _ _ _)

/-- Settles O36: the value written is the value read without the bits of the source register, unless that is `x0`. -/
theorem csrrcReadsAndClears : Obligations.CsrrcReadsAndClears := by
  intro l rd rs1 s hl hm
  exact exec_completes rfl hl hm rfl rfl (written_unless _ _ _)

/-- Settles O37: the value written is the zero-extended immediate. -/
theorem csrrwiReadsAndWrites : Obligations.CsrrwiReadsAndWrites := by
  intro l rd uimm s hl hm
  rw [← immediateOperand_eq_ofNat]
  exact exec_completes rfl hl hm rfl rfl rfl

/-- Settles O38: the value written is the value read with the bits of the immediate, unless that is 0. -/
theorem csrrsiReadsAndSets : Obligations.CsrrsiReadsAndSets := by
  intro l rd uimm s hl hm
  rw [← immediateOperand_eq_ofNat]
  exact exec_completes rfl hl hm rfl rfl (written_unless _ _ _)

/-- Settles O39: the value written is the value read without the bits of the immediate, unless that is 0. -/
theorem csrrciReadsAndClears : Obligations.CsrrciReadsAndClears := by
  intro l rd uimm s hl hm
  rw [← immediateOperand_eq_ofNat]
  exact exec_completes rfl hl hm rfl rfl (written_unless _ _ _)

/-- Settles O29: the field after the write is the write function of those two bytes (`cfg_swWrite`). -/
theorem fieldsAreIndependent : Obligations.FieldsAreIndependent := by
  intro p l v v' S S' k hold hslice
  rw [cfg_swWrite, cfg_swWrite, hold, hslice]

end Sys2Proof.Machine
end

section
/-!
PROOFS. The statements of 60_exceptions.md: an access below M raises and does nothing else (R81), a write that is
rejected completes (R83), the trap mechanism (R86), and the causes of the exceptions (R80, R81).
-/

namespace Sys2Proof.Machine

/-! ### An instruction below M -/

/-- An instruction on `pmpcfg12` below M raises. -/
theorem exec_below_M {i : Instr} {s : State} {l : Len} (hc : i.csr = Config.pmpcfg12Address)
    (hl : lenOf s.mxl = some l) (hm : s.mode = .belowM) :
    exec i s = .next (raise (.illegalInstruction (encodeWord i)) s) := by
  rw [exec_eq_access_readModifyWrite, access_below_M hc hl hm]

/-- Below M the only next state an instruction answers is that of its exception. -/
theorem exec_next_below_M {i : Instr} {s t : State} (hm : s.mode = .belowM) (h : exec i s = .next t) :
    t = raise (.illegalInstruction (encodeWord i)) s := by
  obtain ⟨_, _, _, ⟨hM, _⟩ | ⟨_, ht⟩⟩ := exec_next h
  · cases hm.symm.trans hM
  · exact ht

/-- An exception leaves the general registers as they are. -/
theorem sameX_raise (e : Exception) (s : State) (r : Reg) : SameX s (raise e s) r :=
  readX_congr (raise_x e s) .len64 r

/-! ### What can raise an exception -/

/-- An instruction leaves the pending exception as it is, or raises its own below M. -/
theorem exec_trap {i : Instr} {s t : State} (h : exec i s = .next t) :
    t.trap = s.trap ∨ (s.mode = .belowM ∧ t.trap = some (.illegalInstruction (encodeWord i))) := by
  obtain ⟨_, l, _, ⟨_, rd, reads, written, rfl⟩ | ⟨hm, rfl⟩⟩ := exec_next h
  · obtain ⟨_, _, _, _, _, htrap, _⟩ := readModifyWrite_surroundings l rd reads written s
    exact .inl htrap
  · exact .inr ⟨hm, raise_trap _ s⟩

/-- The trap mechanism takes a pending exception. -/
theorem trapTaken_of_pending {s : State} {e : Exception} (h : s.trap = some e) (mode : Mode) (pc : Word64) :
    trapTaken mode pc s = { s with trap := none, mode := mode, pc := pc } := by
  simp [trapTaken, h]

/-- With no exception pending the trap mechanism does nothing. -/
theorem trapTaken_of_idle {s : State} (h : s.trap = none) (mode : Mode) (pc : Word64) : trapTaken mode pc s = s := by
  simp [trapTaken, h]

/-- An input raises no exception: it leaves the pending one as it is, or none. -/
theorem applyInput_trap (i : Input) (s : State) : (applyInput i s).trap = s.trap ∨ (applyInput i s).trap = none := by
  cases i with
  | run => exact .inl rfl
  | reset launch => exact .inr (applyReset_trap launch s)
  | mxlBecomes mxl x => exact .inl (applyMxl_trap mxl x s)
  | modeBecomes mode => exact .inl rfl
  | trapTaken mode pc =>
    cases h : s.trap with
    | none => exact .inr ((congrArg State.trap (trapTaken_of_idle h mode pc)).trans h)
    | some e => exact .inr (congrArg State.trap (trapTaken_of_pending h mode pc))

/-! ### The word of the instruction that runs -/

/-- A byte that is fetched is a byte of memory. -/
theorem read_of_fetchByte {l : Len} {s : State} {n : Nat} {b : Byte} (h : fetchByte l s n = .ok b) :
    Memory.read s.mem (codeAddress l s n) = some b := by
  unfold fetchByte at h
  split at h
  · cases h
    assumption
  · cases h

/-- Bytes that are fetched are the four bytes of memory from `pc` upward. -/
theorem read_of_fetchBytes {l : Len} {s : State} {bytes : List Byte} (h : fetchBytes l s = .ok bytes) :
    ∃ b : Fin 4 → Byte, (∀ n : Fin 4, Memory.read s.mem (codeAddress l s n.val) = some (b n)) ∧
      bytes = [b 0, b 1, b 2, b 3] := by
  unfold fetchBytes at h
  split at h
  case h_1 b0 b1 b2 b3 h0 h1 h2 h3 =>
    cases h
    refine ⟨![b0, b1, b2, b3], fun n => ?_, rfl⟩
    fin_cases n
    · exact read_of_fetchByte h0
    · exact read_of_fetchByte h1
    · exact read_of_fetchByte h2
    · exact read_of_fetchByte h3
  all_goals cases h

/-- Four bytes that decode make a word that decodes to the same instruction. -/
theorem decodeWord_of_decodeBytes {b0 b1 b2 b3 : Byte} {i : Instr} {rest : List Byte}
    (h : decodeBytes [b0, b1, b2, b3] = .ok (i, rest)) : decodeWord (b3 ++ b2 ++ b1 ++ b0) = .ok i := by
  cases hword : decodeWord (b3 ++ b2 ++ b1 ++ b0) with
  | ok j =>
    cases (decodeBytes_of_word hword).symm.trans h
    rfl
  | error e => cases (decodeBytes_of_word_error hword).symm.trans h

/-- The hart's instruction ran if it answers a next state: no exception was pending, there was a length, and the four
bytes from `pc` upward make a word that decodes to it. -/
theorem runInstruction_next {s t : State} (h : runInstruction s = .next t) :
    s.trap = none ∧ ∃ (l : Len) (b : Fin 4 → Byte) (i : Instr), lenOf s.mxl = some l ∧
      (∀ n : Fin 4, Memory.read s.mem (codeAddress l s n.val) = some (b n)) ∧
      decodeWord (b 3 ++ b 2 ++ b 1 ++ b 0) = .ok i ∧ exec i s = .next t := by
  unfold runInstruction at h
  split at h
  case h_1 => cases h
  case h_2 htrap =>
    split at h
    case h_1 => cases h
    case h_2 l hl =>
      split at h
      case h_1 => cases h
      case h_2 bytes hfetch =>
        split at h
        case h_1 => cases h
        case h_2 i rest hdecode =>
          obtain ⟨b, hmem, rfl⟩ := read_of_fetchBytes hfetch
          exact ⟨htrap, l, b, i, hl, hmem, decodeWord_of_decodeBytes hdecode, h⟩

/-! ### What a pending exception and a rejected write leave -/

/-- The hart's instruction is refused while an exception awaits the trap mechanism. -/
theorem runInstruction_of_pending {s : State} {e : Exception} (h : s.trap = some e) :
    runInstruction s = .refused (.controlWithTrapMechanism e) := by
  simp only [runInstruction, h]

/-- Every instruction with a destination other than `x0` reads the CSR. -/
theorem readsCsr_of_rd_ne_zero {i : Instr} (h : i.rd ≠ 0) : readsCsr i = true := by
  cases i with
  | csrrw rd csr rs1 => exact decide_eq_true h
  | csrrwi rd csr uimm => exact decide_eq_true h
  | csrrs _ _ _ | csrrc _ _ _ | csrrsi _ _ _ | csrrci _ _ _ => rfl

/-- An illegal instruction records its word or zero, as the implementation chooses. -/
theorem recordedValue_illegalInstruction (insn : InsnWord) :
    recordedValue (.illegalInstruction insn) = insn.setWidth 64 ∨
      recordedValue (.illegalInstruction insn) = 0#64 := by
  unfold recordedValue
  exact ite_eq_or_eq _ _ _

/-! ### The obligations -/

/-- Settles O54: the table of cause codes and recorded values; only the illegal instruction's depends on a choice. -/
theorem exceptionsHaveTheirCauses : Obligations.ExceptionsHaveTheirCauses :=
  fun insn _ => ⟨rfl, rfl, rfl, rfl, recordedValue_illegalInstruction insn, rfl, rfl, rfl⟩

/-- Settles O50: the hart asks for a pending exception first, and the input asks whether there is one. -/
theorem trapMechanismTakesControl : Obligations.TrapMechanismTakesControl := by
  refine ⟨fun s e htrap hn => ?_, fun s e mode pc rest htrap hinputs => ?_, fun s mode pc rest htrap hinputs => ?_⟩
  · rw [step_of_hartNext hn]
    exact runInstruction_of_pending htrap
  · rw [step_of_input hinputs (by simp)]
    exact congrArg _ (trapTaken_of_pending (s := { s with inputs := rest }) htrap mode pc)
  · rw [step_of_input hinputs (by simp)]
    exact congrArg _ (trapTaken_of_idle (s := { s with inputs := rest }) htrap mode pc)

/-- Settles O40: the next state is that of the exception, which leaves every other part of the state. -/
theorem accessBelowMRaises : Obligations.AccessBelowMRaises := by
  intro i l s hwf hl hm
  exact ⟨_, exec_below_M (wellFormed_iff_csr.1 hwf) hl hm, rfl, rfl, rfl, sameX_raise _ s, rfl, rfl, rfl, rfl,
    fun _ => rfl, rfl⟩

/-- Settles O16: what a step of the hart below M leaves is its exception. -/
theorem nothingBelowMChangesTheRegister : Obligations.NothingBelowMChangesTheRegister := by
  intro s t hm hn h
  obtain ⟨_, i, _, hexec⟩ := hart_step_next hn h
  obtain rfl := exec_next_below_M (s := hartState s) hm hexec
  exact ⟨rfl, sameX_raise _ (hartState s), rfl⟩

/-- Settles O17: an input raises nothing, and an instruction of the hart only below M and with its own word, which is
the fetched word that decodes to it. -/
theorem onlyIllegalInstructionIsRaised : Obligations.OnlyIllegalInstructionIsRaised := by
  intro s t e h hraised hnew
  obtain ⟨hn, _⟩ | ⟨_, i, rest, _, _, rfl⟩ := step_cases h
  · rw [step_of_hartNext hn] at h
    obtain ⟨_, l, b, i, hl, hmem, hdecode, hexec⟩ := runInstruction_next h
    obtain hkeep | ⟨hm, hown⟩ := exec_trap hexec
    · exact absurd (hkeep.symm.trans hraised) hnew
    · obtain ⟨_, hword⟩ := encodeOfDecodeIsIdentity _ i hdecode
      obtain rfl : Exception.illegalInstruction (encodeWord i) = e := Option.some.inj (hown.symm.trans hraised)
      exact ⟨hn, hm, l, b, i, hl, hmem, hdecode, hexec, congrArg _ hword⟩
  · obtain hkeep | hnone := applyInput_trap i { s with inputs := rest }
    · exact absurd (hkeep.symm.trans hraised) hnew
    · cases hnone.symm.trans hraised

/-- Settles O43: whatever the attempted write is, the instruction completes with its result, which reads into every
destination other than `x0`. -/
theorem rejectedWriteCompletes : Obligations.RejectedWriteCompletes := by
  intro i l s hwf hl hm
  obtain ⟨t, hexec, _, hregisters, hpc, _, hsurroundings⟩ :=
    exec_completes (wellFormed_iff_csr.1 hwf) hl hm rfl rfl rfl
  obtain ⟨_, _, _, _, _, htrap, _⟩ := hsurroundings
  refine ⟨t, hexec, htrap, fun hrd => ?_, hpc⟩
  have hread := hregisters i.rd
  rwa [if_pos ⟨rfl, hrd, readsCsr_of_rd_ne_zero hrd⟩] at hread

end Sys2Proof.Machine
end

section
/-!
PROOFS. The statements of 70_reset_and_hazards.md: the reset event (R95, R97), the change of MXL (R101), and that a
step, and so a run, of the machine is a run of the core operations that it performs (R103).
-/

namespace Sys2Proof.Machine

/-! ### The reset event and the change of MXL as steps -/

/-- A reset event that waits first is the next step. -/
theorem step_of_reset {s : State} {launch : Launch} {rest : List Input} (h : s.inputs = .reset launch :: rest) :
    step s = .next (applyReset launch { s with inputs := rest }) :=
  step_of_input h (by simp)

/-- A change of MXL that waits first is the next step. -/
theorem step_of_mxlBecomes {s : State} {mxl : Nat} {x : Vector Word64 31} {rest : List Input}
    (h : s.inputs = .mxlBecomes mxl x :: rest) : step s = .next (applyMxl mxl x { s with inputs := rest }) :=
  step_of_input h (by simp)

/-! ### What an instruction logs and what it does to the register -/

/-- From `s` to `t` the log grows by `os`, first first, and the run of their accesses takes the register of `s` to that
of `t` and returns the values that `os` says were read (R103). -/
def LogsItsAccesses (s t : State) (os : List Observation) : Prop :=
  t.observed = os.reverse ++ s.observed ∧
    coreRun s.params (os.filterMap accessOf) s.pmpcfg12 = (t.pmpcfg12, readsIn os)

/-- A read-modify-write logs its read of the register, if it reads, and then its write of it, if it writes. -/
theorem readModifyWrite_logsItsAccesses (l : Len) (rd : Reg) (reads : Bool)
    (written : Option (BitVec l.bits → BitVec l.bits)) (s : State) :
    ∃ os, LogsItsAccesses s (readModifyWrite l rd reads written s) os := by
  cases reads with
  | false =>
    cases written with
    | none => exact ⟨[], rfl, rfl⟩
    | some f => exact ⟨[.write l (f (swRead l s.pmpcfg12))], rfl, rfl⟩
  | true =>
    cases written with
    | none => exact ⟨[.read l (swRead l s.pmpcfg12)], rfl, rfl⟩
    | some f => exact ⟨[.read l (swRead l s.pmpcfg12), .write l (f (swRead l s.pmpcfg12))], rfl, rfl⟩

/-- An exception is logged and is no access. -/
theorem raise_logsItsAccesses (e : Exception) (s : State) : LogsItsAccesses s (raise e s) [.raised e] :=
  ⟨rfl, rfl⟩

/-- An instruction logs its accesses, or its exception and no access. -/
theorem exec_logsItsAccesses {i : Instr} {s t : State} (h : exec i s = .next t) : ∃ os, LogsItsAccesses s t os := by
  obtain ⟨_, l, _, ⟨_, rd, reads, written, rfl⟩ | ⟨_, rfl⟩⟩ := exec_next h
  · exact readModifyWrite_logsItsAccesses l rd reads written s
  · exact ⟨_, raise_logsItsAccesses _ s⟩

/-! ### The core operations of a step -/

/-- A step of the hart is no reset event. -/
theorem resetNext_of_hartNext {s : State} (h : hartNext s = true) : resetNext s = false := by
  unfold hartNext at h
  split at h
  case h_1 hinputs | h_2 hinputs => simp [resetNext, hinputs]
  case h_3 => cases h

/-- The operations of an instruction of the hart are the accesses it newly observes. -/
theorem stepOps_of_hartNext {s : State} (t : State) (h : hartNext s = true) :
    stepOps s t = (newlyObserved s t).filterMap accessOf := by
  simp [stepOps, h, resetNext_of_hartNext h]

/-- The core operations that an input from outside the hart is: RESET for the reset event, none for any other. -/
def inputOps : Input → List CoreOp
  | .reset _ => [.reset]
  | .run | .mxlBecomes _ _ | .modeBecomes _ | .trapTaken _ _ => []

/-- A step that is an input performs the operations of the input. -/
theorem stepOps_of_input {s : State} {i : Input} {rest : List Input} (t : State) (hn : hartNext s = false)
    (h : s.inputs = i :: rest) : stepOps s t = inputOps i := by
  cases i with
  | reset launch => simp [stepOps, resetNext, h, inputOps]
  | run | mxlBecomes _ _ | modeBecomes _ | trapTaken _ _ => simp [stepOps, resetNext, hn, h, inputOps]

/-- The trap mechanism leaves the register as it is. -/
@[simp] theorem trapTaken_pmpcfg12 (mode : Mode) (pc : Word64) (s : State) :
    (trapTaken mode pc s).pmpcfg12 = s.pmpcfg12 := by
  unfold trapTaken
  split <;> rfl

/-- The operations of an input do to the register what the input does, and return nothing. -/
theorem coreRun_inputOps (i : Input) (s : State) :
    coreRun s.params (inputOps i) s.pmpcfg12 = ((applyInput i s).pmpcfg12, []) := by
  cases i with
  | reset launch => exact coreRun_singleton s.params .reset s.pmpcfg12
  | run | mxlBecomes _ _ | modeBecomes _ => rfl
  | trapTaken mode pc => exact congrArg (·, []) (trapTaken_pmpcfg12 mode pc s).symm

/-! ### Runs -/

/-- A run changes no parameter. -/
theorem runsBy_params {s t : State} {ops : List CoreOp} (h : RunsBy s ops t) : t.params = s.params := by
  induction h with
  | refl => rfl
  | tail _ hstep ih => exact (parametersAreFixed _ _ hstep).trans ih

/-- The reads of a log that grew: those of the new observations, given first first, and then the earlier ones. -/
theorem readsIn_reverse_append (new earlier : List Observation) :
    readsIn (new.reverse ++ earlier) = (readsIn new).reverse ++ readsIn earlier := by
  simp only [readsIn, List.filter_append, List.filter_reverse]

/-! ### The obligations -/

/-- Settles O55: an instruction of the hart logs exactly its accesses, and an input logs nothing and is RESET or leaves
the register. -/
theorem everyStepIsItsCoreOperations : Obligations.EveryStepIsItsCoreOperations := by
  intro s t h
  obtain ⟨hn, _, i, _, hexec⟩ | ⟨hn, i, rest, _, hinputs, rfl⟩ := step_cases h
  · obtain ⟨os, hlog, hcore⟩ := exec_logsItsAccesses hexec
    have hnew : newlyObserved s t = os := (newlyObserved_of_append hlog).trans os.reverse_reverse
    rw [stepOps_of_hartNext t hn, hnew]
    exact ⟨hcore, hlog, fun hother => by simp [hn] at hother⟩
  · obtain ⟨_, hlog⟩ := applyInput_mem_observed i { s with inputs := rest }
    have hnew : newlyObserved s (applyInput i { s with inputs := rest }) = [] := newlyObserved_of_append (os := []) hlog
    rw [stepOps_of_input _ hn hinputs, hnew]
    exact ⟨coreRun_inputOps i { s with inputs := rest }, hlog, fun _ => rfl⟩

/-- Settles O15, by induction over the run: its last step is its own core operations, run after those of the steps
before it at the parameters that no step changes. -/
theorem everyRunIsARunOfCoreOperations : Obligations.EveryRunIsARunOfCoreOperations := by
  intro s t ops h
  induction h with
  | refl => exact ⟨rfl, rfl⟩
  | @tail t u ops hrun hstep ih =>
    obtain ⟨hreg, hreads⟩ := ih
    obtain ⟨hcore, hlog, _⟩ := everyStepIsItsCoreOperations t u hstep
    rw [runsBy_params hrun] at hcore
    rw [coreRun_append, hreg, hcore]
    refine ⟨rfl, ?_⟩
    calc readsIn u.observed
        = (readsIn (newlyObserved t u)).reverse ++ readsIn t.observed := by rw [hlog, readsIn_reverse_append]
      _ = ((coreRun s.params ops s.pmpcfg12).2 ++ readsIn (newlyObserved t u)).reverse ++ readsIn s.observed := by
        rw [hreads, List.reverse_append, List.append_assoc]

/-- Settles O26: RESET and the reset event write the reset value, and look at no lock and no length. -/
theorem resetEventClearsTheRegister : Obligations.ResetEventClearsTheRegister := by
  refine ⟨fun _ _ => rfl, fun s launch rest h => ?_⟩
  exact ⟨_, step_of_reset h, applyReset_pmpcfg12 launch _⟩

/-- Settles O27: the step is the reset event, and each field of the state is the launch's or stays. -/
theorem resetEventTakesItsLaunch : Obligations.ResetEventTakesItsLaunch := by
  intro s launch rest h
  exact ⟨_, step_of_reset h, applyReset_mxl .., applyReset_mode .., applyReset_pc .., applyReset_x ..,
    applyReset_trap .., applyReset_inputs .., applyReset_mem .., applyReset_observed ..⟩

/-- Settles O48: the step is the change of MXL, which reaches the general registers alone, and at length 64 the software
read is the whole register. -/
theorem mxlChangeKeepsTheRegister : Obligations.MxlChangeKeepsTheRegister := by
  intro s mxl x rest h
  exact ⟨_, step_of_mxlBecomes h, applyMxl_mxl .., applyMxl_pmpcfg12 .., BitVec.setWidth_eq _, applyMxl_mode ..,
    applyMxl_pc .., applyMxl_mem .., applyMxl_trap .., applyMxl_inputs .., applyMxl_observed ..,
    fun hsame => if_pos hsame, fun hchange => if_neg hchange⟩

end Sys2Proof.Machine
end
